-- ==== Sys2Proof/Word.lean ====
section
/-! DEFINITION. The widths of the engine's values: bytes, 32-bit words, 128-bit blocks (00_scope.md R8). -/

namespace Sys2Proof

/-- An 8-bit value: a byte of the buffer, of a block, of a word; `RCON` (R8, R29). -/
abbrev Byte := BitVec 8

/-- A 32-bit word of a 128-bit value (R8). -/
abbrev Word := BitVec 32

/-- A 128-bit register value: a block, a round key, the chain value (R6, R8). -/
abbrev Block := BitVec 128

end Sys2Proof
end

