-- ==== Sys2Proof/Config.lean ====
section
/-! DEFINITION. What is fixed for the engine (00_scope.md R6) and the open parameters (R7). -/

namespace Sys2Proof.Config

/-- KEYBYTES, the one key length CONSTRUCT accepts (R6). -/
abbrev keyBytes : Nat := 32

/-- IVBYTES (R6). -/
abbrev ivBytes : Nat := 16

/-- BLOCKBYTES, the one access width of the buffer port (R6). -/
abbrev blockBytes : Nat := 16

/-- NRK, the number of round keys (R6). -/
abbrev numRoundKeys : Nat := 15

/-- NR, the number of rounds after whitening (R6). -/
abbrev numRounds : Nat := 14

/-- LENW and KLENW, the widths in bits of the PROCESS length and of the CONSTRUCT key length (R7): parameters that
statements take as an argument. No meaning depends on them, since LEN and KLEN are natural numbers (R7, U14; log 7). -/
structure Widths where
  lenw : Nat
  klenw : Nat
  deriving DecidableEq, Repr

/-- "KLENW is at least 6 so that 32 is representable and at least one wrong length on each side exists" (R7). -/
def Widths.ok (p : Widths) : Bool := 6 ≤ p.klenw

/-- A FREE VALUE (R108, U7; log 1): whether the `k`-th command that reset cuts short has already written block `n` of its
buffer. The spec makes "no statement as to which" blocks. -/
opaque writtenBeforeReset (k n : Nat) : Bool

end Sys2Proof.Config
end

