-- ==== Sys2Proof/Syntax.lean ====
section
/-! DEFINITION. The operations of the engine, one constructor a row of spec/opcode_table.json, and what the command
port carries (30_encoding.md R43 to R48). -/

namespace Sys2Proof

/-- One row of the opcode table with its operands. The first four are the commands (format CMD); the others are the unit
operations (format UNIT), which have no encoding and are run only inside CONSTRUCT and PROCESS (R48; log 9). -/
inductive Instr where
  /-- Command word 00 (R95); no operand is looked at. -/
  | reserved
  /-- CONSTRUCT(KLEN, KEY, IV, DIRV) (R44, R83); `dirv = true` is 1, encrypt requested (D19). -/
  | construct (klen : Nat) (key : List Byte) (iv : Vector Byte 16) (dirv : Bool)
  /-- PROCESS(LEN) (R45, R85). -/
  | process (len : Nat)
  /-- ISREADY() (R84). -/
  | isReady
  /-- xtime(b) (R50). -/
  | xtime (b : Byte)
  /-- gmul(a, b) (R51). -/
  | gmul (a b : Byte)
  /-- SBOX[x] (R52). -/
  | sbox (x : Byte)
  /-- SUBBYTES(v) (R53). -/
  | subBytes (v : Block)
  /-- SHIFTROWS(v) (R54). -/
  | shiftRows (v : Block)
  /-- MIXCOLUMNS(v) (R55). -/
  | mixColumns (v : Block)
  /-- ADDROUNDKEY(v, k) (R56). -/
  | addRoundKey (v k : Block)
  /-- ENCROUND(v, k) (R57). -/
  | encRound (v k : Block)
  /-- ENCLAST(v, k) (R58). -/
  | encLast (v k : Block)
  /-- ENCRYPTBLOCK(v) (R59). -/
  | encryptBlock (v : Block)
  /-- SUBWORD(w) (R63). -/
  | subWord (w : Word)
  /-- ROTWORD(w) (R64). -/
  | rotWord (w : Word)
  /-- KEYASSIST(x, rc) (R66). -/
  | keyAssist (x : Block) (rc : Byte)
  /-- BCAST(a, j), j in 0..3 (R67). -/
  | bcast (a : Block) (j : Fin 4)
  /-- DIFFUSE(t) (R68). -/
  | diffuse (t : Block)
  /-- KSEVEN(e, o, rc) (R69). -/
  | ksEven (e o : Block) (rc : Byte)
  /-- KSODD(o, e) (R70). -/
  | ksOdd (o e : Block)
  /-- EXPAND(K0, K1) (R71). -/
  | expand (k0 k1 : Block)
  /-- CBCBLOCK(n) (R75). -/
  | cbcBlock (n : Nat)
  /-- CBCRUN(LEN) (R76). -/
  | cbcRun (len : Nat)
  deriving DecidableEq, Repr

/-- What the command port carries for one command: the 2-bit command word, and beside it, not packed into it, the
operands of R44 and R45 (R43, R47). A command that has no such operand leaves its place unread. -/
structure Command where
  op : BitVec 2
  klen : Nat := 0
  key : List Byte := []
  iv : Vector Byte 16 := Vector.replicate 16 0
  dirv : Bool := false
  len : Nat := 0
  deriving DecidableEq, Repr

/-- The rows of format CMD, those a decoder can give (R48). -/
def Instr.isCommand : Instr → Bool
  | .reserved | .construct _ _ _ _ | .process _ | .isReady => true
  | .xtime _ | .gmul _ _ | .sbox _ | .subBytes _ | .shiftRows _ | .mixColumns _ | .addRoundKey _ _
  | .encRound _ _ | .encLast _ _ | .encryptBlock _ | .subWord _ | .rotWord _ | .keyAssist _ _ | .bcast _ _
  | .diffuse _ | .ksEven _ _ _ | .ksOdd _ _ | .expand _ _ | .cbcBlock _ | .cbcRun _ => false

end Sys2Proof
end

