-- ==== Sys2Proof/WellFormed.lean ====
section
/-! DEFINITION. Which operands the formats admit (30_encoding.md R44, R45; 42_cbc_controller.md R75, R76) for given
operand widths (00_scope.md R7). What the types already say (a byte, a block, j in 0..3, sixteen IV bytes) is not said
again. -/

namespace Sys2Proof

/-- The operands of `i` lie in the ranges its rule gives them: KLEN fits KLENW and KEY is KLEN bytes (R44); LEN fits LENW
(R45); a block step has `16n + 16 <= LEN` for some LEN (R75, R77); CBCRUN takes a positive multiple of 16 (R76). -/
def Instr.wf (p : Config.Widths) : Instr → Bool
  | .construct klen key _ _ => decide (klen < 2 ^ p.klenw) && decide (key.length = klen)
  | .process len => decide (len < 2 ^ p.lenw)
  | .cbcBlock n => decide (16 * n + 16 < 2 ^ p.lenw)
  | .cbcRun len => decide (0 < len) && decide (len % 16 = 0) && decide (len < 2 ^ p.lenw)
  | .reserved | .isReady | .xtime _ | .gmul _ _ | .sbox _ | .subBytes _ | .shiftRows _ | .mixColumns _
  | .addRoundKey _ _ | .encRound _ _ | .encLast _ _ | .encryptBlock _ | .subWord _ | .rotWord _ | .keyAssist _ _
  | .bcast _ _ | .diffuse _ | .ksEven _ _ _ | .ksOdd _ _ | .expand _ _ => true

end Sys2Proof
end

