-- ==== Sys2Proof/Decode.lean ====
section
/-! DEFINITION. The decoder of the command port and the encoder (30_encoding.md R47, R48). -/

namespace Sys2Proof

/-- The opcode map of R47: "All four values of `op` are assigned, so a decoder is total". Operands a command does not
have are not looked at. -/
def decode (c : Command) : Instr :=
  match c.op with
  | 0b00#2 => .reserved
  | 0b01#2 => .construct c.klen c.key c.iv c.dirv
  | 0b10#2 => .process c.len
  | 0b11#2 => .isReady

/-- The command word of a row of format CMD; a unit operation has none (R47, R48). -/
def Instr.opcode : Instr → Option (BitVec 2)
  | .reserved => some 0b00
  | .construct _ _ _ _ => some 0b01
  | .process _ => some 0b10
  | .isReady => some 0b11
  | .xtime _ | .gmul _ _ | .sbox _ | .subBytes _ | .shiftRows _ | .mixColumns _ | .addRoundKey _ _
  | .encRound _ _ | .encLast _ _ | .encryptBlock _ | .subWord _ | .rotWord _ | .keyAssist _ _ | .bcast _ _
  | .diffuse _ | .ksEven _ _ _ | .ksOdd _ _ | .expand _ _ | .cbcBlock _ | .cbcRun _ => none

/-- The command port's contents that stand for `i`: its word (R47) and its operands (R44, R45), every other operand
place at zero. None for a unit operation: "Unit operations have no encoding" (R48). -/
def encode : Instr → Option Command
  | .reserved => some { op := 0b00 }
  | .construct klen key iv dirv => some { op := 0b01, klen := klen, key := key, iv := iv, dirv := dirv }
  | .process len => some { op := 0b10, len := len }
  | .isReady => some { op := 0b11 }
  | .xtime _ | .gmul _ _ | .sbox _ | .subBytes _ | .shiftRows _ | .mixColumns _ | .addRoundKey _ _
  | .encRound _ _ | .encLast _ _ | .encryptBlock _ | .subWord _ | .rotWord _ | .keyAssist _ _ | .bcast _ _
  | .diffuse _ | .ksEven _ _ _ | .ksOdd _ _ | .expand _ _ | .cbcBlock _ | .cbcRun _ => none

/-- The command whose word is the low two bits of `w` (the table's mask is 0x3) and whose operands are all zero: KLEN 0
and no key byte, IV zero, DIRV 0, LEN 0 (log 15). -/
def tableCommand (nbits w : Nat) : Command := { op := BitVec.ofNat 2 (w % 2 ^ nbits) }

/-- What the decoder reads from a word of the opcode table with operand places of zeros (log 15). -/
def decodeTableWord (nbits w : Nat) : Option Instr := some (decode (tableCommand nbits w))

end Sys2Proof
end

