-- ==== Sys2Proof/Machine/State.lean ====
section
/-! DEFINITION. The machine's state, what it stops with, and reset (10_state.md R13, R27; 20_memory.md R29;
30_encoding.md R43; 70_reset_and_hazards.md R107). -/

namespace Sys2Proof.Machine

open Sys2Proof

/-- The buffer (R29): the bytes that have been written, by offset, strictly rising. An offset not listed has no value
(U6; log 5). -/
abbrev Memory := List Host.Cell

/-- One access on the buffer port (R30, R31, R43). -/
inductive Access where
  /-- `MemRead(off, 16)` (R30). -/
  | read (off : Nat)
  /-- `MemWrite(off, 16, v)` (R31). -/
  | write (off : Nat) (v : Block)
  deriving DecidableEq, Repr

/-- What the response port carries (R46). -/
inductive Response where
  /-- CONSTRUCT: completion, no value. -/
  | completion
  /-- ISREADY: 1 bit, `true` is 1 (D20). -/
  | ready (bit : Bool)
  /-- PROCESS and the reserved word: a 2-bit status code. -/
  | status (code : BitVec 2)
  deriving DecidableEq, Repr

/-- The errors the engine can report, R90's whole list. -/
inductive Error where
  | constructionFailure
  | invalidBufferSize
  | notReady
  | illegalCommand
  deriving DecidableEq, Repr

/-- The two operating states of R103, told apart by READY. -/
inductive Operating where
  | unconfigured
  | configured
  deriving DecidableEq, Repr

/-- The result of a unit operation, at the width its rule gives (R50 to R58, R63 to R70). -/
inductive UnitResult where
  | byte (b : Byte)
  | word (w : Word)
  | block (v : Block)
  deriving DecidableEq, Repr

/-- One move of the host (R5, R43, R86, R107, R108; log 3). -/
inductive HostMove where
  /-- A command on the command port (R43). -/
  | command (c : Command)
  /-- The host puts a buffer with these bytes behind the buffer port, all of them written (R29, R39, R110). -/
  | buffer (bytes : List Byte)
  /-- Reset between commands (R107). -/
  | reset
  /-- A command on the command port, and reset while it is in progress (R108; log 1). -/
  | resetDuring (c : Command)
  deriving DecidableEq, Repr

/-- The registers an operation reads that may hold no value (R14). -/
inductive Reg where
  | RK (i : Fin 15)
  | CS
  deriving DecidableEq, Repr

/-- Why the machine stops. -/
inductive Fault where
  /-- A read of a register that holds no value: "a read of a register that holds no value is a fault of the model" (R10),
  "treat a read of it as a fault, never as zero" (R14), "absent; reading it faults" (93_implementation_defined.md, U3);
  computing with such registers "has no meaning" (D6, 92_eei_decisions.md). Raised by
  ENCRYPTBLOCK, CBCBLOCK, CBCRUN and PROCESS, the last only in states no command sequence reaches. Safe. -/
  | registerHoldsNoValue (r : Reg)
  /-- A MemRead of a buffer byte nothing has written: "An unwritten buffer byte has no value and reading it faults" (U6;
  log 5, log 6). Raised by CBCBLOCK, CBCRUN and PROCESS on a buffer shorter than its length operand. Safe. -/
  | bufferByteHasNoValue (off : Nat)
  deriving DecidableEq, Repr

/-- Why the model gives no next state. -/
inductive Refusal where
  /-- `exec`'s arm has no meaning yet. Safe. -/
  | notModelled (mnemonic : String)
  /-- CONSTRUCT with KLEN = 32 whose KEY operand is not 32 bytes: R44 makes KEY `KLEN` bytes, so no command port carries
  this (log 8). Safe. -/
  | keyIsNotKlenBytes
  deriving DecidableEq, Repr

/-- The state: R13's registers under the spec's names, then the buffer and the ports. A register's `none` is R14's "holds
no value" (log 2). -/
structure State where
  /-- `RK[0..14]` (R15). -/
  RK : Vector (Option Block) 15
  /-- The chain register (R16). -/
  CS : Option Block
  /-- R17. -/
  READY : Bool
  /-- The direction flag, written and never read (R18); `true` is 1, encrypt requested (D19). -/
  DIR : Option Bool
  /-- The RFE's block register (R19). -/
  S : Option Block
  /-- The most recent even-position round key (R20). -/
  T1 : Option Block
  /-- The result of the key-assist step (R20). -/
  T2 : Option Block
  /-- The most recent odd-position round key (R20). -/
  T3 : Option Block
  /-- The round constant (R20, R65). -/
  RCON : Option Byte
  /-- The block counter (R22); at most LEN / 16, so it needs no wrap. -/
  BLK : Option Nat
  /-- The round counter, 0 to 14 (R22). -/
  RND : Option (BitVec 4)
  /-- The round-key position, 2 to 14 (R22). -/
  KIDX : Option (BitVec 4)
  /-- The buffer behind the buffer port (R29). -/
  buf : Memory
  /-- The result of the last unit operation run by itself; the model's own (log 9). -/
  unitOut : Option UnitResult
  /-- The responses delivered so far, newest first (R43, R46; log 10). -/
  responses : List Response
  /-- The accesses made on the buffer port by commands that were not cut short, newest first (R34, R43; log 10). -/
  accesses : List Access
  /-- The host's moves still to come, in order (log 3). -/
  host : List HostMove
  /-- How many commands reset has cut short; it picks the free values of R108; the model's own (log 1). -/
  cutShort : Nat
  deriving DecidableEq, Repr

/-- After reset: READY = 0 and no other register holds a value (R27, R107); nothing waits and nothing has been sent. -/
def State.reset : State where
  RK := Vector.replicate 15 none
  CS := none
  READY := false
  DIR := none
  S := none
  T1 := none
  T2 := none
  T3 := none
  RCON := none
  BLK := none
  RND := none
  KIDX := none
  buf := []
  unitOut := none
  responses := []
  accesses := []
  host := []
  cutShort := 0

end Sys2Proof.Machine
end

