-- ==== Sys2Proof/Machine/Flags.lean ====
section
/-! DEFINITION. The two flags, the operating state they tell, and the status codes (10_state.md R17, R18, R24;
30_encoding.md R46; 60_exceptions.md R90, R103). There are no condition codes: no operation of the engine computes one
(10_state.md after R18, 40_round_function.md R60). -/

namespace Sys2Proof.Machine

/-- Status 0 of PROCESS (R46, D5). -/
def statusOk : BitVec 2 := 0

/-- R90's column "code": ConstructionFailure has none, it is "visible only through ISREADY" (R83, R92). -/
def Error.status : Error → Option (BitVec 2)
  | .constructionFailure => none
  | .invalidBufferSize => some 1
  | .notReady => some 2
  | .illegalCommand => some 3

/-- The number a response carries: none for a completion, the bit of ISREADY, a status code (R46). -/
def Response.value : Response → Option Nat
  | .completion => none
  | .ready bit => some bit.toNat
  | .status code => some code.toNat

/-- R103: UNCONFIGURED when READY = 0, CONFIGURED when READY = 1. -/
def State.operating (s : State) : Operating := if s.READY then .configured else .unconfigured

/-- CONSTRUCT's key length test: "writes 1 when the key length operand is 32 and 0 otherwise" (R17, R83). -/
def keyLengthOk (klen : Nat) : Bool := decide (klen = Config.keyBytes)

/-- PROCESS's length test: `LEN` "must be a positive multiple of 16" (R33, R85). -/
def lengthOk (len : Nat) : Bool := decide (0 < len) && decide (len % Config.blockBytes = 0)

end Sys2Proof.Machine
end

