-- ==== Sys2Proof/Machine/Ops.lean ====
section
/-! DEFINITION. The named operations every meaning is made of: slices and byte order (00_scope.md R8, R10), the buffer
(20_memory.md R30, R31), register access (10_state.md R14), responses and the taking of an error (60_exceptions.md R96),
reset (70_reset_and_hazards.md R107). -/

namespace Sys2Proof.Machine

open Sys2Proof

/-! ### Slices and byte order -/

/-- `byte(v, i) = v[8i+7 : 8i]` (R8). -/
def byte (v : Block) (i : Nat) : Byte := v.extractLsb' (8 * i) 8

/-- `word(v, j) = v[32j+31 : 32j]` (R8). -/
def word (v : Block) (j : Nat) : Word := v.extractLsb' (32 * j) 32

/-- `wbyte(w, k) = w[8k+7 : 8k]` (R8). -/
def wbyte (w : Word) (k : Nat) : Byte := w.extractLsb' (8 * k) 8

/-- The 128-bit value whose byte i is `f i`: little-endian, the first byte least significant (R8, R30, R32). -/
def ofBytes (f : Nat → Byte) : Block :=
  f 15 ++ f 14 ++ f 13 ++ f 12 ++ f 11 ++ f 10 ++ f 9 ++ f 8 ++ f 7 ++ f 6 ++ f 5 ++ f 4 ++ f 3 ++ f 2 ++ f 1 ++ f 0

/-- The 128-bit value whose word j is `f j` (R8). -/
def ofWords (f : Nat → Word) : Block := f 3 ++ f 2 ++ f 1 ++ f 0

/-- The 32-bit word whose byte k is `f k` (R8). -/
def ofWbytes (f : Nat → Byte) : Word := f 3 ++ f 2 ++ f 1 ++ f 0

/-- `zext_N(v)` (R10). -/
def zext {m : Nat} (n : Nat) (v : BitVec m) : BitVec n := v.setWidth n

/-- `sext_N(v)` (R10): "defined for completeness, used by no rule". -/
def sext {m : Nat} (n : Nat) (v : BitVec m) : BitVec n := v.signExtend n

/-- A byte string of `len` bytes written as one hexadecimal number, first byte first (R8). -/
def byteString : (len n : Nat) → List Byte
  | 0, _ => []
  | len + 1, n => BitVec.ofNat 8 (n / 256 ^ len) :: byteString len n

/-- The register value of a 16-byte string, first byte first (R8: "loaded by rule R30"). -/
def blockOfString (n : Nat) : Block := ofBytes fun i => (byteString 16 n).getD i 0

/-! ### The buffer -/

/-- The byte at an offset, absent where none has been written (U6). -/
def Memory.read : Memory → Nat → Option Byte
  | [], _ => none
  | (a, b) :: m, off => if off = a then some b else Memory.read m off

/-- One byte written at its place in the order of offsets. -/
def Memory.write : Memory → Nat → Byte → Memory
  | [], off, v => [(off, v)]
  | (a, b) :: m, off, v =>
    if off < a then (off, v) :: (a, b) :: m
    else if off = a then (a, v) :: m
    else (a, b) :: Memory.write m off v

/-- Offsets strictly rising from `lo` on. -/
def Memory.risingFrom : Nat → Memory → Bool
  | _, [] => true
  | lo, (a, _) :: m => decide (lo ≤ a) && Memory.risingFrom (a + 1) m

/-- The canonical form: offsets strictly rising. Every listed byte differs from what an unlisted offset reads as, which is
no value (log 5). -/
def Memory.wf (m : Memory) : Bool := Memory.risingFrom 0 m

/-- The bytes `bs` at offsets `off`, `off + 1`, ... -/
def Memory.place : (off : Nat) → (bs : List Byte) → Memory
  | _, [] => []
  | off, b :: bs => (off, b) :: Memory.place (off + 1) bs

/-- The first of the `n` offsets from `off` on that holds no value. -/
def Memory.firstMissing (m : Memory) : (off n : Nat) → Option Nat
  | _, 0 => none
  | off, n + 1 => if (m.read off).isSome then Memory.firstMissing m (off + 1) n else some off

/-- The value of `MemRead(off, 16)` on a buffer whose sixteen bytes there all hold a value: `byte(v, i) = buf[off + i]`
(R30). -/
def Memory.readBlock (m : Memory) (off : Nat) : Block := ofBytes fun i => (m.read (off + i)).getD 0

/-- `buf[off + i] <- byte(v, i)` for i below `n`, in that order. -/
def Memory.writeBytes (m : Memory) (off : Nat) (v : Block) : (n : Nat) → Memory
  | 0 => m
  | n + 1 => (Memory.writeBytes m off v n).write (off + n) (byte v n)

/-- `MemWrite(off, 16, v)` on the buffer: `buf[off + i] <- byte(v, i)` for i in 0..15 and no other byte (R31). -/
def Memory.writeBlock (m : Memory) (off : Nat) (v : Block) : Memory := m.writeBytes off v Config.blockBytes

/-- A buffer in which each block has its bytes of `new` or of `old`, as `pick` says (R108). -/
def Memory.mix (pick : Nat → Bool) (new : Memory) : (old : Memory) → Memory
  | [] => []
  | (a, b) :: old =>
    (a, if pick (a / Config.blockBytes) then (new.read a).getD b else b) :: Memory.mix pick new old

/-- `MemRead(off, 16)` (R30) as an access on the buffer port (R43): sixteen bytes at once (R36). A byte without a value is
a fault (U6). -/
def memRead (off : Nat) (s : State) : Except Fault (Block × State) :=
  match s.buf.firstMissing off Config.blockBytes with
  | some a => .error (.bufferByteHasNoValue a)
  | none => .ok (s.buf.readBlock off, { s with accesses := .read off :: s.accesses })

/-- `MemWrite(off, 16, v)` (R31) as an access on the buffer port (R43). -/
def memWrite (off : Nat) (v : Block) (s : State) : State :=
  { s with buf := s.buf.writeBlock off v, accesses := .write off v :: s.accesses }

/-! ### Registers -/

/-- A read of `RK[i]`. The spec states the stop: "a read of a register that holds no value is a fault of the model" (R10,
00_scope.md), "treat a read of it as a fault, never as zero" (R14, 10_state.md); no command meets it (R14, R28). -/
def readRK (i : Fin 15) (s : State) : Except Fault Block :=
  match s.RK[i] with
  | some k => .ok k
  | none => .error (.registerHoldsNoValue (.RK i))

/-- A read of `CS`, with the same stop (R10, R14). -/
def readCS (s : State) : Except Fault Block :=
  match s.CS with
  | some c => .ok c
  | none => .error (.registerHoldsNoValue .CS)

/-- A failing CONSTRUCT: `READY <- 0`, and "RK[0..14], CS and DIR are left holding no value" (R83, D10). -/
def loseInstance (s : State) : State :=
  { s with RK := Vector.replicate 15 none, CS := none, DIR := none, READY := false }

/-- "after CONSTRUCT ends the scratch registers hold no value as far as any rule is concerned" (R21 c, U8; log 11). -/
def dropKeyScratch (s : State) : State :=
  { s with T1 := none, T2 := none, T3 := none, RCON := none, KIDX := none }

/-- After PROCESS the block register and its counters hold no value (R19, R22, U8; log 11). -/
def dropBlockScratch (s : State) : State := { s with S := none, BLK := none, RND := none }

/-- The result of a unit operation run by itself (log 9); no register changes. -/
def yieldUnit (r : UnitResult) (s : State) : State := { s with unitOut := some r }

/-! ### Responses and errors -/

/-- `respond v`: the one response of a command (R10, R46). -/
def respond (r : Response) (s : State) : State := { s with responses := r :: s.responses }

/-- What the host gets for an error: its status code, or for ConstructionFailure, which has none, the completion of
CONSTRUCT (R90, R92). -/
def Error.response (e : Error) : Response :=
  match e.status with
  | some code => .status code
  | none => .completion

/-- `raise E` (R96), the engine's whole way of taking an error: every register and buffer byte keeps the value it had when
the raise was reached, the response is E's, and the engine is ready for the next command. Nothing is saved, no mode
changes, control goes nowhere; so there is nothing to return from (R101). -/
def raise (e : Error) (s : State) : State := respond e.response s

/-- The outcome of operations that may read what holds no value (R14). -/
def finish : Except Fault State → Host.Outcome State Fault Refusal
  | .ok s => .next s
  | .error f => .fault f

/-! ### What the host does between commands -/

/-- The host puts a buffer with these bytes behind the buffer port: offsets 0 to their number less one, all written
(R29, R110). -/
def presentBuffer (bytes : List Byte) (s : State) : State := { s with buf := Memory.place 0 bytes }

/-- Reset: `READY <- 0`, every other register left holding no value (R107); the buffer is not touched (R109) and no
response is given. What the ports carried before stays carried, and the host's later moves stay to come. -/
def resetEngine (s : State) : State :=
  { State.reset with
    buf := s.buf
    responses := s.responses
    accesses := s.accesses
    host := s.host
    cutShort := s.cutShort }

/-- Reset while a command is in progress (R108): "the command produces no response, the engine's state is that of rule R107,
and the buffer of an interrupted PROCESS holds, for each block, either its plaintext or its ciphertext". `t` is what the
whole command would have left (log 1). -/
def cutByReset (s t : State) : State :=
  resetEngine { s with
    buf := Memory.mix (Config.writtenBeforeReset s.cutShort) t.buf s.buf
    cutShort := s.cutShort + 1 }

end Sys2Proof.Machine
end

