-- ==== Sys2Proof/Machine/Operands.lean ====
section
/-! DEFINITION. How the operands of CONSTRUCT become register values (30_encoding.md R44), and the only address
computation (42_cbc_controller.md R77). -/

namespace Sys2Proof.Machine

open Sys2Proof

/-- `K0` and `K1`: `byte(K0, i) = key[i]`, `byte(K1, i) = key[16 + i]`; "the first sixteen bytes are the first half"
(R44). Defined for a KEY operand of 32 bytes. -/
def keyHalves (key : List Byte) : Option (Block × Block) :=
  if key.length = Config.keyBytes then
    some (ofBytes fun i => key.getD i 0, ofBytes fun i => key.getD (16 + i) 0)
  else none

/-- `IVV`: `byte(IVV, i) = iv[i]` (R44). -/
def ivValue (iv : Vector Byte 16) : Block := ofBytes fun i => iv.toList.getD i 0

/-- "The effective byte offset of block step `n` is `16 * n`, used once for the read and once for the write" (R77). -/
def blockOffset (n : Nat) : Nat := Config.blockBytes * n

/-- The number of block steps of a run over `len` bytes: `LEN / 16` (R45, R76). -/
def blockCount (len : Nat) : Nat := len / Config.blockBytes

end Sys2Proof.Machine
end

