-- ==== Sys2Proof/Machine/Rfe.lean ====
section
/-! DEFINITION. The round-function engine (40_round_function.md): the pure operations of R50 to R58, ENCRYPTBLOCK over
the registers (R59), and the meaning of each row. No operation here has an inverse (R61). -/

namespace Sys2Proof.Machine

open Sys2Proof

/-! ### Arithmetic in GF(2^8) -/

/-- `xtime(b)`: doubling modulo x^8 + x^4 + x^3 + x + 1 (R50; G2). -/
def xtime (b : Byte) : Byte := if b.getLsbD 7 then (b <<< 1) ^^^ 0x1b#8 else b <<< 1

/-- One turn of R51's loop, on (r, a). -/
def gmulTurn (b : Byte) (ra : Byte × Byte) (k : Nat) : Byte × Byte :=
  (if b.getLsbD k then ra.1 ^^^ ra.2 else ra.1, xtime ra.2)

/-- `gmul(a, b)`: the loop of R51, k in 0..7. -/
def gmul (a b : Byte) : Byte := ((List.range 8).foldl (gmulTurn b) (0, a)).1

/-- The table of R52 by rows: row = high nibble, column = low nibble (G3). -/
def sboxRow : Nat → List Nat
  | 0x0 => [0x63, 0x7c, 0x77, 0x7b, 0xf2, 0x6b, 0x6f, 0xc5, 0x30, 0x01, 0x67, 0x2b, 0xfe, 0xd7, 0xab, 0x76]
  | 0x1 => [0xca, 0x82, 0xc9, 0x7d, 0xfa, 0x59, 0x47, 0xf0, 0xad, 0xd4, 0xa2, 0xaf, 0x9c, 0xa4, 0x72, 0xc0]
  | 0x2 => [0xb7, 0xfd, 0x93, 0x26, 0x36, 0x3f, 0xf7, 0xcc, 0x34, 0xa5, 0xe5, 0xf1, 0x71, 0xd8, 0x31, 0x15]
  | 0x3 => [0x04, 0xc7, 0x23, 0xc3, 0x18, 0x96, 0x05, 0x9a, 0x07, 0x12, 0x80, 0xe2, 0xeb, 0x27, 0xb2, 0x75]
  | 0x4 => [0x09, 0x83, 0x2c, 0x1a, 0x1b, 0x6e, 0x5a, 0xa0, 0x52, 0x3b, 0xd6, 0xb3, 0x29, 0xe3, 0x2f, 0x84]
  | 0x5 => [0x53, 0xd1, 0x00, 0xed, 0x20, 0xfc, 0xb1, 0x5b, 0x6a, 0xcb, 0xbe, 0x39, 0x4a, 0x4c, 0x58, 0xcf]
  | 0x6 => [0xd0, 0xef, 0xaa, 0xfb, 0x43, 0x4d, 0x33, 0x85, 0x45, 0xf9, 0x02, 0x7f, 0x50, 0x3c, 0x9f, 0xa8]
  | 0x7 => [0x51, 0xa3, 0x40, 0x8f, 0x92, 0x9d, 0x38, 0xf5, 0xbc, 0xb6, 0xda, 0x21, 0x10, 0xff, 0xf3, 0xd2]
  | 0x8 => [0xcd, 0x0c, 0x13, 0xec, 0x5f, 0x97, 0x44, 0x17, 0xc4, 0xa7, 0x7e, 0x3d, 0x64, 0x5d, 0x19, 0x73]
  | 0x9 => [0x60, 0x81, 0x4f, 0xdc, 0x22, 0x2a, 0x90, 0x88, 0x46, 0xee, 0xb8, 0x14, 0xde, 0x5e, 0x0b, 0xdb]
  | 0xa => [0xe0, 0x32, 0x3a, 0x0a, 0x49, 0x06, 0x24, 0x5c, 0xc2, 0xd3, 0xac, 0x62, 0x91, 0x95, 0xe4, 0x79]
  | 0xb => [0xe7, 0xc8, 0x37, 0x6d, 0x8d, 0xd5, 0x4e, 0xa9, 0x6c, 0x56, 0xf4, 0xea, 0x65, 0x7a, 0xae, 0x08]
  | 0xc => [0xba, 0x78, 0x25, 0x2e, 0x1c, 0xa6, 0xb4, 0xc6, 0xe8, 0xdd, 0x74, 0x1f, 0x4b, 0xbd, 0x8b, 0x8a]
  | 0xd => [0x70, 0x3e, 0xb5, 0x66, 0x48, 0x03, 0xf6, 0x0e, 0x61, 0x35, 0x57, 0xb9, 0x86, 0xc1, 0x1d, 0x9e]
  | 0xe => [0xe1, 0xf8, 0x98, 0x11, 0x69, 0xd9, 0x8e, 0x94, 0x9b, 0x1e, 0x87, 0xe9, 0xce, 0x55, 0x28, 0xdf]
  | _ => [0x8c, 0xa1, 0x89, 0x0d, 0xbf, 0xe6, 0x42, 0x68, 0x41, 0x99, 0x2d, 0x0f, 0xb0, 0x54, 0xbb, 0x16]

/-- `SBOX[x]` (R52). -/
def sbox (x : Byte) : Byte := BitVec.ofNat 8 ((sboxRow (x.toNat / 16)).getD (x.toNat % 16) 0)

/-! ### The four transforms -/

/-- SUBBYTES: `byte(w, i) = SBOX[byte(v, i)]` (R53). -/
def subBytes (v : Block) : Block := ofBytes fun i => sbox (byte v i)

/-- R54's input byte index for the output byte at row r, column c. -/
def shiftRowsSource (i : Nat) : Nat := let r := i % 4; let c := i / 4; r + 4 * ((c + r) % 4)

/-- SHIFTROWS: row r of the state array (R9) rotated left by r columns (R54). -/
def shiftRows (v : Block) : Block := ofBytes fun i => byte v (shiftRowsSource i)

/-- `b0..b3` of one column (R55). -/
def mixColumn (a0 a1 a2 a3 : Byte) : Nat → Byte
  | 0 => gmul a0 2 ^^^ gmul a1 3 ^^^ a2 ^^^ a3
  | 1 => a0 ^^^ gmul a1 2 ^^^ gmul a2 3 ^^^ a3
  | 2 => a0 ^^^ a1 ^^^ gmul a2 2 ^^^ gmul a3 3
  | _ => gmul a0 3 ^^^ a1 ^^^ a2 ^^^ gmul a3 2

/-- MIXCOLUMNS: each column replaced by R55's matrix product. -/
def mixColumns (v : Block) : Block := ofBytes fun i =>
  let c := i / 4
  mixColumn (byte v (4 * c)) (byte v (4 * c + 1)) (byte v (4 * c + 2)) (byte v (4 * c + 3)) (i % 4)

/-- ADDROUNDKEY (R56). -/
def addRoundKey (v k : Block) : Block := v ^^^ k

/-- ENCROUND: the four stages in NC's order (R57). -/
def encRound (v k : Block) : Block := addRoundKey (mixColumns (shiftRows (subBytes v))) k

/-- ENCLAST: no MIXCOLUMNS (R58). -/
def encLast (v k : Block) : Block := addRoundKey (shiftRows (subBytes v)) k

/-! ### The block cipher -/

/-- `S <- x`, `RND <- r`. -/
def setRound (x : Block) (r : Fin 15) (s : State) : State := { s with S := some x, RND := some (BitVec.ofNat 4 r) }

/-- The full rounds: `S <- ENCROUND(S, RK[r]); RND <- r` for each r of the list (R59); `x` is what S holds. -/
def encRounds : List (Fin 15) → Block → State → Except Fault (Block × State)
  | [], x, s => .ok (x, s)
  | r :: rs, x, s => do
    let k ← readRK r s
    let y := encRound x k
    encRounds rs y (setRound y r s)

/-- Rounds 1 to 13, in order (R59). -/
def fullRounds : List (Fin 15) := [1, 2, 3, 4, 5, 6, 7, 8, 9, 10, 11, 12, 13]

/-- ENCRYPTBLOCK(v) (R59): whitening with RK[0], the full rounds, the final round with RK[14]; gives what it returns and
the state it leaves. -/
def encryptBlock (v : Block) (s : State) : Except Fault (Block × State) := do
  let k0 ← readRK 0 s
  let x0 := addRoundKey v k0
  let (x13, s) ← encRounds fullRounds x0 (setRound x0 0 s)
  let k14 ← readRK 14 s
  let x14 := encLast x13 k14
  return (x14, setRound x14 14 s)

/-! ### Meanings -/

/-- xtime (R50). -/
def execXtime (b : Byte) (s : State) : Host.Outcome State Fault Refusal := .next (yieldUnit (.byte (xtime b)) s)

/-- gmul (R51). -/
def execGmul (a b : Byte) (s : State) : Host.Outcome State Fault Refusal := .next (yieldUnit (.byte (gmul a b)) s)

/-- SBOX (R52). -/
def execSbox (x : Byte) (s : State) : Host.Outcome State Fault Refusal := .next (yieldUnit (.byte (sbox x)) s)

/-- SUBBYTES (R53). -/
def execSubBytes (v : Block) (s : State) : Host.Outcome State Fault Refusal :=
  .next (yieldUnit (.block (subBytes v)) s)

/-- SHIFTROWS (R54). -/
def execShiftRows (v : Block) (s : State) : Host.Outcome State Fault Refusal :=
  .next (yieldUnit (.block (shiftRows v)) s)

/-- MIXCOLUMNS (R55). -/
def execMixColumns (v : Block) (s : State) : Host.Outcome State Fault Refusal :=
  .next (yieldUnit (.block (mixColumns v)) s)

/-- ADDROUNDKEY (R56). -/
def execAddRoundKey (v k : Block) (s : State) : Host.Outcome State Fault Refusal :=
  .next (yieldUnit (.block (addRoundKey v k)) s)

/-- ENCROUND (R57). -/
def execEncRound (v k : Block) (s : State) : Host.Outcome State Fault Refusal :=
  .next (yieldUnit (.block (encRound v k)) s)

/-- ENCLAST (R58). -/
def execEncLast (v k : Block) (s : State) : Host.Outcome State Fault Refusal :=
  .next (yieldUnit (.block (encLast v k)) s)

/-- ENCRYPTBLOCK (R59): uses S and RND, returns the block. -/
def execEncryptBlock (v : Block) (s : State) : Host.Outcome State Fault Refusal :=
  finish do
    let (y, s) ← encryptBlock v s
    return yieldUnit (.block y) s

end Sys2Proof.Machine
end

