-- ==== Sys2Proof/Machine/Kse.lean ====
section
/-! DEFINITION. The key-schedule expander (41_key_schedule.md): the pure operations of R63 to R70, EXPAND over the
registers (R71, R74), and the meaning of each row. -/

namespace Sys2Proof.Machine

open Sys2Proof

/-! ### Word operations and register-level steps -/

/-- SUBWORD: `wbyte(u, k) = SBOX[wbyte(w, k)]` (R63). -/
def subWord (w : Word) : Word := ofWbytes fun k => sbox (wbyte w k)

/-- ROTWORD: `(w >> 8) | (w << 24)[31:0]` (R64). -/
def rotWord (w : Word) : Word := (w >>> 8) ||| (w <<< 24)

/-- The four words of KEYASSIST's result (R66). Words 1 and 0 are used by no other operation (G8). -/
def keyAssistWord (x : Block) (rc : Byte) : Nat → Word
  | 3 => rotWord (subWord (word x 3)) ^^^ zext 32 rc
  | 2 => subWord (word x 3)
  | 1 => rotWord (subWord (word x 1)) ^^^ zext 32 rc
  | _ => subWord (word x 1)

/-- KEYASSIST (R66, C1, C2). -/
def keyAssist (x : Block) (rc : Byte) : Block := ofWords (keyAssistWord x rc)

/-- BCAST: `word(u, i) = word(a, j)` (R67). -/
def bcast (a : Block) (j : Fin 4) : Block := ofWords fun _ => word a j

/-- One turn of R68's loop. -/
def diffuseTurn (t : Block) : Block := t ^^^ (t <<< 32)

/-- DIFFUSE: three turns (R68). -/
def diffuse (t : Block) : Block := diffuseTurn (diffuseTurn (diffuseTurn t))

/-- KSEVEN (R69). -/
def ksEven (e o : Block) (rc : Byte) : Block := diffuse e ^^^ bcast (keyAssist o rc) 3

/-- KSODD (R70). -/
def ksOdd (o e : Block) : Block := diffuse o ^^^ bcast (keyAssist e 0) 2

/-! ### The expansion -/

/-- What EXPAND threads through its loop: the KSE's registers (R20) and the round keys written so far, in index order
(R15). The pair (`t1`, `t3`) is NC's "register pair" (R74). -/
structure KeyRegs where
  t1 : Block
  t3 : Block
  t2 : Option Block
  rcon : Byte
  kidx : Option (BitVec 4)
  keys : List Block
  deriving DecidableEq, Repr

/-- `RK[0] <- K0; RK[1] <- K1; T1 <- K0; T3 <- K1; RCON <- 0x01` (R71). -/
def keyStart (k0 k1 : Block) : KeyRegs :=
  { t1 := k0, t3 := k1, t2 := none, rcon := 0x01, kidx := none, keys := [k0, k1] }

/-- The even half of a turn: `KIDX <- 2n`, T2, T1, `RK[2n] <- T1`, `RCON <- xtime(RCON)` (R71, R65). -/
def evenStep (n : Nat) (g : KeyRegs) : KeyRegs :=
  let t2 := keyAssist g.t3 g.rcon
  let t1 := diffuse g.t1 ^^^ bcast t2 3
  { g with kidx := some (BitVec.ofNat 4 (2 * n)), t2 := some t2, t1 := t1, keys := g.keys ++ [t1], rcon := xtime g.rcon }

/-- The odd half of a turn: `KIDX <- 2n + 1`, T2, T3, `RK[2n+1] <- T3` (R71). -/
def oddStep (n : Nat) (g : KeyRegs) : KeyRegs :=
  let t2 := keyAssist g.t1 0
  let t3 := diffuse g.t3 ^^^ bcast t2 2
  { g with kidx := some (BitVec.ofNat 4 (2 * n + 1)), t2 := some t2, t3 := t3, keys := g.keys ++ [t3] }

/-- One turn of R71's loop; the odd half is left out when n = 7. -/
def keyTurn (g : KeyRegs) (n : Nat) : KeyRegs := if n ≤ 6 then oddStep n (evenStep n g) else evenStep n g

/-- R71's loop, n in 1..7: a pure function of the two key halves (R73). -/
def keySchedule (k0 k1 : Block) : KeyRegs := [1, 2, 3, 4, 5, 6, 7].foldl keyTurn (keyStart k0 k1)

/-- The fifteen round keys of a key (R71, R73). -/
def roundKeys (k0 k1 : Block) : Vector (Option Block) 15 := Vector.ofFn fun i => (keySchedule k0 k1).keys[i.val]?

/-- EXPAND(K0, K1) (R71): writes RK and leaves the KSE's registers as R74 says. -/
def expand (k0 k1 : Block) (s : State) : State :=
  let g := keySchedule k0 k1
  { s with
    RK := roundKeys k0 k1
    T1 := some g.t1
    T2 := g.t2
    T3 := some g.t3
    RCON := some g.rcon
    KIDX := g.kidx }

/-! ### Meanings -/

/-- SUBWORD (R63). -/
def execSubWord (w : Word) (s : State) : Host.Outcome State Fault Refusal := .next (yieldUnit (.word (subWord w)) s)

/-- ROTWORD (R64). -/
def execRotWord (w : Word) (s : State) : Host.Outcome State Fault Refusal := .next (yieldUnit (.word (rotWord w)) s)

/-- KEYASSIST (R66). -/
def execKeyAssist (x : Block) (rc : Byte) (s : State) : Host.Outcome State Fault Refusal :=
  .next (yieldUnit (.block (keyAssist x rc)) s)

/-- BCAST (R67). -/
def execBcast (a : Block) (j : Fin 4) (s : State) : Host.Outcome State Fault Refusal :=
  .next (yieldUnit (.block (bcast a j)) s)

/-- DIFFUSE (R68). -/
def execDiffuse (t : Block) (s : State) : Host.Outcome State Fault Refusal :=
  .next (yieldUnit (.block (diffuse t)) s)

/-- KSEVEN (R69). -/
def execKsEven (e o : Block) (rc : Byte) (s : State) : Host.Outcome State Fault Refusal :=
  .next (yieldUnit (.block (ksEven e o rc)) s)

/-- KSODD (R70). -/
def execKsOdd (o e : Block) (s : State) : Host.Outcome State Fault Refusal :=
  .next (yieldUnit (.block (ksOdd o e)) s)

/-- EXPAND (R71, R74). -/
def execExpand (k0 k1 : Block) (s : State) : Host.Outcome State Fault Refusal := .next (expand k0 k1 s)

end Sys2Proof.Machine
end

