-- ==== Sys2Proof/Machine/Ccc.lean ====
section
/-! DEFINITION. The CBC chaining controller (42_cbc_controller.md): one block (R75), the block loop (R76), and the meaning
of the two rows. DIR is read nowhere (R82). -/

namespace Sys2Proof.Machine

open Sys2Proof

/-- `S <- x`. -/
def setS (x : Block) (s : State) : State := { s with S := some x }

/-- `CS <- x`. -/
def setCS (x : Block) (s : State) : State := { s with CS := some x }

/-- `BLK <- n`. -/
def setBLK (n : Nat) (s : State) : State := { s with BLK := some n }

/-- CBCBLOCK(n) (R75): load the block, exclusive-or with CS, encrypt, store at the same offset, and set CS. -/
def cbcBlock (n : Nat) (s : State) : Except Fault State := do
  let (p, s) ← memRead (blockOffset n) s
  let s := setS p s
  let c ← readCS s
  let s := setS (p ^^^ c) s
  let (y, s) ← encryptBlock (p ^^^ c) s
  return setCS y (memWrite (blockOffset n) y s)

/-- The loop of R76 with `todo` blocks still to do and BLK at `blk`: `CBCBLOCK(BLK); BLK <- BLK + 1`. -/
def cbcLoop : (todo blk : Nat) → State → Except Fault State
  | 0, _, s => .ok s
  | todo + 1, blk, s => do
    let s ← cbcBlock blk s
    cbcLoop todo (blk + 1) (setBLK (blk + 1) s)

/-- CBCRUN(LEN) (R76): BLK from 0 to LEN / 16 (log 13 for a LEN that is no positive multiple of 16). -/
def cbcRun (len : Nat) (s : State) : Except Fault State := cbcLoop (blockCount len) 0 (setBLK 0 s)

/-- CBCBLOCK (R75). -/
def execCbcBlock (n : Nat) (s : State) : Host.Outcome State Fault Refusal := finish (cbcBlock n s)

/-- CBCRUN (R76). -/
def execCbcRun (len : Nat) (s : State) : Host.Outcome State Fault Refusal := finish (cbcRun len s)

end Sys2Proof.Machine
end

