-- ==== Sys2Proof/Machine/Commands.lean ====
section
/-! DEFINITION. The commands (43_commands.md R83 to R85) and the reserved command word (60_exceptions.md R95). -/

namespace Sys2Proof.Machine

open Sys2Proof

/-- Command word 00 (R95): "The engine changes no state, makes no buffer access and responds status 3, whatever operands
accompany the word". -/
def execReserved (s : State) : Host.Outcome State Fault Refusal := .next (raise .illegalCommand s)

/-- The successful half of CONSTRUCT (R83): EXPAND, `CS <- IVV`, `DIR <- DIRV`, `READY <- 1`; the scratch registers then
hold no value (R21 c). -/
def installInstance (k0 k1 ivv : Block) (dirv : Bool) (s : State) : State :=
  dropKeyScratch { expand k0 k1 s with CS := some ivv, DIR := some dirv, READY := true }

/-- CONSTRUCT(KLEN, KEY, IV, DIRV) (R83). With a wrong KLEN the KEY bytes are ignored (R44, U10). -/
def execConstruct (klen : Nat) (key : List Byte) (iv : Vector Byte 16) (dirv : Bool) (s : State) :
    Host.Outcome State Fault Refusal :=
  if keyLengthOk klen then
    match keyHalves key with
    | some (k0, k1) => .next (respond .completion (installInstance k0 k1 (ivValue iv) dirv s))
    | none => .refused .keyIsNotKlenBytes
  else .next (raise .constructionFailure (loseInstance s))

/-- PROCESS(LEN) (R85): NotReady is tested before the length (R99); after both tests the blocks are run and the response
is 0. -/
def execProcess (len : Nat) (s : State) : Host.Outcome State Fault Refusal :=
  if s.READY = false then .next (raise .notReady s)
  else if lengthOk len = false then .next (raise .invalidBufferSize s)
  else finish do
    let s ← cbcRun len s
    return respond (.status statusOk) (dropBlockScratch s)

/-- ISREADY() (R84). -/
def execIsReady (s : State) : Host.Outcome State Fault Refusal := .next (respond (.ready s.READY) s)

end Sys2Proof.Machine
end

