-- ==== Sys2Proof/Machine/Dispatch.lean ====
section
/-! DEFINITION. The one dispatch from a row of the opcode table to its meaning. -/

namespace Sys2Proof.Machine

def exec (i : Instr) (s : State) : Host.Outcome State Fault Refusal :=
  match i with
  | .reserved => Sys2Proof.Machine.execReserved s
  | .construct klen key iv dirv => Sys2Proof.Machine.execConstruct klen key iv dirv s
  | .process len => Sys2Proof.Machine.execProcess len s
  | .isReady => Sys2Proof.Machine.execIsReady s
  | .xtime b => Sys2Proof.Machine.execXtime b s
  | .gmul a b => Sys2Proof.Machine.execGmul a b s
  | .sbox x => Sys2Proof.Machine.execSbox x s
  | .subBytes v => Sys2Proof.Machine.execSubBytes v s
  | .shiftRows v => Sys2Proof.Machine.execShiftRows v s
  | .mixColumns v => Sys2Proof.Machine.execMixColumns v s
  | .addRoundKey v k => Sys2Proof.Machine.execAddRoundKey v k s
  | .encRound v k => Sys2Proof.Machine.execEncRound v k s
  | .encLast v k => Sys2Proof.Machine.execEncLast v k s
  | .encryptBlock v => Sys2Proof.Machine.execEncryptBlock v s
  | .subWord w => Sys2Proof.Machine.execSubWord w s
  | .rotWord w => Sys2Proof.Machine.execRotWord w s
  | .keyAssist x rc => Sys2Proof.Machine.execKeyAssist x rc s
  | .bcast a j => Sys2Proof.Machine.execBcast a j s
  | .diffuse t => Sys2Proof.Machine.execDiffuse t s
  | .ksEven e o rc => Sys2Proof.Machine.execKsEven e o rc s
  | .ksOdd o e => Sys2Proof.Machine.execKsOdd o e s
  | .expand k0 k1 => Sys2Proof.Machine.execExpand k0 k1 s
  | .cbcBlock n => Sys2Proof.Machine.execCbcBlock n s
  | .cbcRun len => Sys2Proof.Machine.execCbcRun len s

end Sys2Proof.Machine
end

