-- ==== Sys2Proof/Machine/Step.lean ====
section
/-! DEFINITION. One step: the host's next move, taken between commands (00_scope.md R5, 43_commands.md R86), or
reset within one (70_reset_and_hazards.md R108). -/

namespace Sys2Proof.Machine

open Sys2Proof

/-- `s` after the host's next move has left its list. -/
def State.withHost (s : State) (rest : List HostMove) : State := { s with host := rest }

/-- One step. A command is decoded and run to completion (R5, R86), unless reset cuts it short (R108); a buffer is
presented; reset happens; and with no move left the engine "is idle and holds its state until the next command or reset" (R105). -/
def step (s : State) : Host.Outcome State Fault Refusal :=
  match s.host with
  | [] => .next s
  | .command c :: rest => exec (decode c) (s.withHost rest)
  | .buffer bytes :: rest => .next (presentBuffer bytes (s.withHost rest))
  | .reset :: rest => .next (resetEngine (s.withHost rest))
  | .resetDuring c :: rest =>
    match exec (decode c) (s.withHost rest) with
    | .next t => .next (cutByReset (s.withHost rest) t)
    | .fault f => .fault f
    | .refused r => .refused r

/-- `s` with the command of that table word waiting on the command port, ahead of the host's other moves, so that the next
step runs it (log 3, log 15). -/
def State.withFetchWord (s : State) (nbits w : Nat) : State :=
  { s with host := .command (tableCommand nbits w) :: s.host }

end Sys2Proof.Machine
end

