-- ==== Sys2Proof/Machine/Text.lean ====
section
/-! DEFINITION. How commands and buffers are written as text, and the pseudo-operations (30_encoding.md R49). Texts are
lists of characters. The reserved word has no text. -/

namespace Sys2Proof.Machine

open Sys2Proof

/-! ### Numbers -/

/-- The hex digit of a number below 16; the spec writes hex in lower case (R8). -/
def hexDigit (n : Nat) : Char := "0123456789abcdef".toList.getD n '0'

/-- The value of a hex digit, lower case. -/
def hexValue (c : Char) : Option Nat := "0123456789abcdef".toList.findIdx? (· = c)

/-- A byte string, two digits a byte, first byte first (R8, R49). -/
def writeHex : List Byte → List Char
  | [] => []
  | b :: bs => hexDigit (b.toNat / 16) :: hexDigit (b.toNat % 16) :: writeHex bs

/-- A byte string read back; absent for an odd number of digits or a character that is no hex digit. -/
def readHex : List Char → Option (List Byte)
  | [] => some []
  | [_] => none
  | h :: l :: cs => do return BitVec.ofNat 8 (16 * (← hexValue h) + (← hexValue l)) :: (← readHex cs)

/-- The decimal digits of `n`, most significant first, put before `acc`; `fuel` exceeds their number. -/
def decDigits : (fuel n : Nat) → (acc : List Char) → List Char
  | 0, _, acc => acc
  | fuel + 1, n, acc =>
    if n < 10 then hexDigit n :: acc else decDigits fuel (n / 10) (hexDigit (n % 10) :: acc)

/-- A number in decimal (R49). -/
def writeDec (n : Nat) : List Char := decDigits (n + 1) n []

/-- The number whose digits so far gave `n`, read on. -/
def readDecFrom : (n : Nat) → List Char → Option Nat
  | n, [] => some n
  | n, c :: cs => do
    let d ← hexValue c
    if d < 10 then readDecFrom (10 * n + d) cs else none

/-- A number read from at least one decimal digit. -/
def readDec : List Char → Option Nat
  | [] => none
  | c :: cs => readDecFrom 0 (c :: cs)

/-! ### Lines -/

/-- The words of a line, parted at each space. -/
def words : List Char → List (List Char)
  | [] => [[]]
  | c :: cs =>
    if c = ' ' then [] :: words cs
    else
      match words cs with
      | [] => [[c]]
      | w :: ws => (c :: w) :: ws

/-- What follows `head` in a word that starts with it. -/
def after : (head word : List Char) → Option (List Char)
  | [], w => some w
  | _ :: _, [] => none
  | h :: hs, c :: cs => if h = c then after hs cs else none

/-- R49's text of a command; none for the reserved word and for unit operations. KLEN is not written: it "is half the digit
count of key". -/
def writeCommand : Instr → Option (List Char)
  | .construct _ key iv dirv =>
    some ("CONSTRUCT key=".toList ++ writeHex key ++ " iv=".toList ++ writeHex iv.toList ++ " dir=".toList ++
      [if dirv then '1' else '0'])
  | .process len => some ("PROCESS len=".toList ++ writeDec len)
  | .isReady => some "ISREADY".toList
  | .reserved
  | .xtime _ | .gmul _ _ | .sbox _ | .subBytes _ | .shiftRows _ | .mixColumns _ | .addRoundKey _ _
  | .encRound _ _ | .encLast _ _ | .encryptBlock _ | .subWord _ | .rotWord _ | .keyAssist _ _ | .bcast _ _
  | .diffuse _ | .ksEven _ _ _ | .ksOdd _ _ | .expand _ _ | .cbcBlock _ | .cbcRun _ => none

/-- `CONSTRUCT key=... iv=... dir=...` from its words. -/
def readConstruct (key iv dir : List Char) : Option Instr := do
  let key ← readHex (← after "key=".toList key)
  let iv ← readHex (← after "iv=".toList iv)
  let dir ← after "dir=".toList dir
  if h : iv.length = 16 then
    if dir = ['0'] then some (.construct key.length key ⟨iv.toArray, h⟩ false)
    else if dir = ['1'] then some (.construct key.length key ⟨iv.toArray, h⟩ true)
    else none
  else none

/-- A command read from R49's text, its words parted by one space each. -/
def readCommand (line : List Char) : Option Instr :=
  match words line with
  | [name] => if name = "ISREADY".toList then some .isReady else none
  | [name, len] =>
    if name = "PROCESS".toList then do return .process (← readDec (← after "len=".toList len)) else none
  | [name, key, iv, dir] => if name = "CONSTRUCT".toList then readConstruct key iv dir else none
  | _ => none

/-- The buffer before or after a PROCESS, as R49 writes it. -/
def writeBuffer (bytes : List Byte) : List Char := "buf = ".toList ++ writeHex bytes

/-- A buffer read from R49's text. -/
def readBuffer (line : List Char) : Option (List Byte) := do readHex (← after "buf = ".toList line)

/-! ### Pseudo-operations -/

/-- NC's `expand(key)` followed by `new(schedule, iv)`: "one `CONSTRUCT key=... iv=... dir=1`" (R49). -/
def pseudoExpandNew (key : List Byte) (iv : Vector Byte 16) : List Instr := [.construct key.length key iv true]

/-- NC's `processInPlace(buffer)`: `PROCESS len=<buffer.length>` (R49). -/
def pseudoProcessInPlace (buffer : List Byte) : List Instr := [.process buffer.length]

/-- NC's `construct(key, iv, direction)` followed by the orchestration layer's check: `CONSTRUCT ...` then `ISREADY`
(R49). -/
def pseudoConstructAndCheck (key : List Byte) (iv : Vector Byte 16) (direction : Bool) : List Instr :=
  [.construct key.length key iv direction, .isReady]

end Sys2Proof.Machine
end

