-- ==== Sys2Proof/Safety.lean ====
section
/-! DEFINITION. The terms claims use: what the machine computes said without registers (40_round_function.md R59,
42_cbc_controller.md R81), the invariant between commands (10_state.md R28), what a run hides, and what counts as a safe
run (93_implementation_defined.md U1, U2). -/

namespace Sys2Proof.Machine

open Sys2Proof

/-! ### The cipher and the chain without registers -/

/-- The fifteen round keys hold the values `ks` (R15). -/
def State.HoldsKeys (s : State) (ks : Fin 15 → Block) : Prop := ∀ i : Fin 15, s.RK[i] = some (ks i)

/-- ENCRYPTBLOCK as a function of the round keys and the block (R59). -/
def cipher (ks : Fin 15 → Block) (v : Block) : Block :=
  encLast (fullRounds.foldl (fun x r => encRound x (ks r)) (addRoundKey v (ks 0))) (ks 14)

/-- The chain value after `n` blocks `p 0 .. p (n - 1)`, from the chain value `c`: with `C[-1] = c`, `C[n] =
ENCRYPTBLOCK(P[n] ^ C[n-1])` (R81), this is `C[n-1]`. -/
def chain (ks : Fin 15 → Block) (c : Block) (p : Nat → Block) : Nat → Block
  | 0 => c
  | n + 1 => cipher ks (p n ^^^ chain ks c p n)

/-- The buffer's first `n` blocks are `p 0 .. p (n - 1)`, every byte written (R30). -/
def Memory.HoldsBlocks (m : Memory) (p : Nat → Block) (n : Nat) : Prop :=
  ∀ j < n, ∀ i < 16, m.read (16 * j + i) = some (byte (p j) i)

/-- The accesses of `n` block steps that write `c 1 .. c n`, newest first (R34). -/
def blockAccesses (c : Nat → Block) : Nat → List Access
  | 0 => []
  | n + 1 => .write (16 * n) (c (n + 1)) :: .read (16 * n) :: blockAccesses c n

/-- The most recently written block of a list of accesses, newest first; `c` if none was written (R28 b, c). -/
def lastWritten (c : Block) : List Access → Block
  | [] => c
  | .write _ v :: _ => v
  | .read _ :: rest => lastWritten c rest

/-! ### The invariant between commands -/

/-- No working register holds a value (R19 to R22, U8). -/
def State.WorkingEmpty (s : State) : Prop :=
  s.S = none ∧ s.T1 = none ∧ s.T2 = none ∧ s.T3 = none ∧ s.RCON = none ∧ s.BLK = none ∧ s.RND = none ∧ s.KIDX = none

/-- R28 as far as one state shows it, with the buffer in canonical form (log 5) and the working registers without value
(log 11): if READY = 1, RK is the EXPAND of some key, and CS and DIR hold values; if READY = 0, none of them does. -/
structure State.Inv (s : State) : Prop where
  buf_wf : s.buf.wf = true
  working : s.WorkingEmpty
  configured : s.READY = true → (∃ k0 k1, s.RK = roundKeys k0 k1) ∧ s.CS ≠ none ∧ s.DIR ≠ none
  unconfigured : s.READY = false → s.RK = Vector.replicate 15 none ∧ s.CS = none ∧ s.DIR = none

/-! ### Runs -/

/-- `k` steps of the machine. -/
abbrev run (k : Nat) (s : State) : Host.Outcome State Fault Refusal := Sys2Proof.core.run k s

/-- `s` with the host's moves `ms` to come. -/
def State.facing (s : State) (ms : List HostMove) : State := { s with host := ms }

/-- READY after moves that all complete: "1 exactly when the most recent CONSTRUCT since reset had KLEN = 32" (R84). -/
def readyAfter (ready : Bool) : List HostMove → Bool
  | [] => ready
  | .command c :: ms => readyAfter (if c.op = 0b01 then decide (c.klen = 32) else ready) ms
  | .buffer _ :: ms => readyAfter ready ms
  | .reset :: ms | .resetDuring _ :: ms => readyAfter false ms

/-- Reset, between commands or within one (R107, R108). -/
def HostMove.isReset : HostMove → Bool
  | .command _ | .buffer _ => false
  | .reset | .resetDuring _ => true

/-- Neither a CONSTRUCT nor reset: a move that stays within the instance (R104). -/
def HostMove.keepsInstance : HostMove → Bool
  | .command c => decide (c.op ≠ 0b01)
  | .buffer _ => true
  | .reset | .resetDuring _ => false

/-! ### What a run hides -/

/-- An outcome seen through `view`. -/
def seen {α : Type} (view : State → α) : Host.Outcome State Fault Refusal → Host.Outcome α Fault Refusal
  | .next s => .next (view s)
  | .fault f => .fault f
  | .refused r => .refused r

/-- A move with its direction operand cleared (R44). -/
def HostMove.withoutDir : HostMove → HostMove
  | .command c => .command { c with dirv := false }
  | .buffer bytes => .buffer bytes
  | .reset => .reset
  | .resetDuring c => .resetDuring { c with dirv := false }

/-- Everything but the direction flag, in the state and in the commands still to come (R18, R82). -/
def State.withoutDir (s : State) : State := { s with DIR := none, host := s.host.map HostMove.withoutDir }

/-- Everything but the working registers (R19 to R22). -/
def State.withoutWorking (s : State) : State :=
  { s with S := none, T1 := none, T2 := none, T3 := none, RCON := none, BLK := none, RND := none, KIDX := none }

/-! ### Safe runs -/

/-- The responses a proof counts as a fault of the program that got them: NotReady (U1, R94) and IllegalCommand (U2). -/
def Response.isProgramFault (r : Response) : Bool :=
  decide (r = Error.notReady.response) || decide (r = Error.illegalCommand.response)

/-- A run of `k` steps that stops nowhere and whose responses hold no program fault (log 12). -/
def SafeRun (k : Nat) (s : State) : Prop :=
  ∃ t new, run k s = .next t ∧ t.responses = new ++ s.responses ∧ ∀ r ∈ new, r.isProgramFault = false

end Sys2Proof.Machine
end

