-- ==== Sys2Proof/Certificates/Slice0/Obligations.lean ====
section
/-! DEFINITION. What is claimed of the machine, for the provers. Each docstring names the rule of spec/ it says. -/

open Sys2Proof Sys2Proof.Machine

/-! ### Encoding and the step -/

/-- R47: the opcode map, for every operand that travels beside the word; the reserved word "changes no state and responds
IllegalCommand". -/
def Obligations.OpcodeMapIsTotalAndAsTabled : Prop :=
  ∀ c : Command,
    (c.op = 0b00 → decode c = .reserved) ∧
    (c.op = 0b01 → decode c = .construct c.klen c.key c.iv c.dirv) ∧
    (c.op = 0b10 → decode c = .process c.len) ∧
    (c.op = 0b11 → decode c = .isReady) ∧
    ∀ s : State, exec .reserved s = .next { s with responses := .status 3 :: s.responses }

/-- 30_encoding.md sections 2 and 3: what is encoded is decoded back with every operand, whatever the widths. -/
def Obligations.DecodeOfEncodeGivesTheCommandBack : Prop :=
  ∀ (p : Config.Widths) (i : Instr), i.wf p = true → i.isCommand = true →
    ∃ c, encode i = some c ∧ decode c = i

/-- 30_encoding.md section 4 (R49): a command written as text is read back with every operand, for every operand value; and a
buffer. -/
def Obligations.WrittenCommandsAreReadBack : Prop :=
  (∀ (p : Config.Widths) (i : Instr), i.wf p = true → i.isCommand = true → i ≠ .reserved →
    ∃ line, writeCommand i = some line ∧ readCommand line = some i) ∧
  ∀ bytes : List Byte, readBuffer (writeBuffer bytes) = some bytes

/-- R48: a unit operation has no encoding, and no command word gives one. -/
def Obligations.UnitOperationsCannotBeIssued : Prop :=
  (∀ i : Instr, i.isCommand = false → encode i = none) ∧ ∀ c : Command, (decode c).isCommand = true

/-- R5, R86, R105, R107 and the model's list of host moves (log 3): a step runs the decoded command at the state whose
host has made that move; with no move left the state is held; a presented buffer is written whole. -/
def Obligations.StepMakesTheNextHostMove : Prop :=
  ∀ (s : State) (rest : List HostMove),
    (∀ c, step (s.facing (.command c :: rest)) = exec (decode c) (s.facing rest)) ∧
    (∀ c i, encode i = some c → step (s.facing (.command c :: rest)) = exec i (s.facing rest)) ∧
    step (s.facing []) = .next (s.facing []) ∧
    (∀ bytes, ∃ t, step (s.facing (.buffer bytes :: rest)) = .next t ∧ t = { s with host := rest, buf := t.buf } ∧
      ∀ a, t.buf.read a = bytes[a]?)

/-! ### Reset -/

/-- R27: the table of reset values. -/
def Obligations.ResetLeavesOnlyReadyWithAValue : Prop :=
  State.reset.READY = false ∧ (∀ i : Fin 15, State.reset.RK[i] = none) ∧ State.reset.CS = none ∧
    State.reset.DIR = none ∧ State.reset.WorkingEmpty

/-- R107, R109: reset from any state; the buffer is not touched, and then ISREADY answers 0 and PROCESS raises NotReady.
That the response and access histories and the host's later moves are kept is the model's choice (log 18). -/
def Obligations.ResetEventUnconfiguresTheEngine : Prop :=
  ∀ (s : State) (rest : List HostMove), ∃ t,
    step (s.facing (.reset :: rest)) = .next t ∧
    t.READY = false ∧ (∀ i : Fin 15, t.RK[i] = none) ∧ t.CS = none ∧ t.DIR = none ∧ t.WorkingEmpty ∧
    t.buf = s.buf ∧ t.responses = s.responses ∧ t.accesses = s.accesses ∧ t.host = rest ∧
    exec .isReady t = .next { t with responses := .ready false :: t.responses } ∧
    ∀ len, exec (.process len) t = .next { t with responses := .status 2 :: t.responses }

/-- R108: reset while PROCESS of a valid length is in progress gives no response, leaves the registers as R107 says, and each
block of the buffer either its plaintext or its ciphertext (a free value says which, log 1); every other byte is as
before. -/
def Obligations.ResetDuringProcessLeavesEachBlockPlainOrEncrypted : Prop :=
  ∀ (s : State) (ks : Fin 15 → Block) (c : Block) (p : Nat → Block) (n : Nat) (cmd : Command) (rest : List HostMove),
    s.READY = true → s.HoldsKeys ks → s.CS = some c → 0 < n → s.buf.HoldsBlocks p n →
    cmd.op = 0b10 → cmd.len = 16 * n →
    ∃ t, step (s.facing (.resetDuring cmd :: rest)) = .next t ∧
      t.READY = false ∧ (∀ i : Fin 15, t.RK[i] = none) ∧ t.CS = none ∧ t.DIR = none ∧ t.WorkingEmpty ∧
      t.responses = s.responses ∧ t.host = rest ∧
      (∃ q : Nat → Block, t.buf.HoldsBlocks q n ∧ ∀ j < n, q j = p j ∨ q j = chain ks c p (j + 1)) ∧
      ∀ a, 16 * n ≤ a → t.buf.read a = s.buf.read a

/-- R108: reset while any other command is in progress, or a PROCESS that raises, is reset (log 1, log 18). -/
def Obligations.ResetDuringAnotherCommandIsReset : Prop :=
  ∀ (s t : State) (cmd : Command) (rest : List HostMove), s.buf.wf = true →
    (cmd.op ≠ 0b10 ∨ s.READY = false ∨ cmd.len = 0 ∨ cmd.len % 16 ≠ 0) →
    step (s.facing (.resetDuring cmd :: rest)) = .next t →
    t = { resetEngine (s.facing rest) with cutShort := s.cutShort + 1 }

/-! ### CONSTRUCT and ISREADY -/

/-- 43_commands.md section 1 (R83, success) with R44's assembly of the operands: from any state, the new RK, CS, DIR and
READY from the operands alone, one completion, the key scratch without value (R21 c; log 11), all else unchanged. -/
def Obligations.ConstructInstallsKeyIvAndDirection : Prop :=
  ∀ (s : State) (key : List Byte) (iv : Vector Byte 16) (dirv : Bool) (hk : key.length = 32),
    ∃ k0 k1 ivv : Block,
      (∀ i (hi : i < 16), byte k0 i = key[i] ∧ byte k1 i = key[16 + i] ∧ byte ivv i = iv[i]) ∧
      exec (.construct 32 key iv dirv) s = .next { s with
        RK := roundKeys k0 k1, CS := some ivv, DIR := some dirv, READY := true
        T1 := none, T2 := none, T3 := none, RCON := none, KIDX := none
        responses := .completion :: s.responses }

/-- R92: with any other key length, whatever the KEY bytes, CONSTRUCT completes, READY is 0 and RK, CS and DIR hold no
value; the failure is then read with ISREADY. -/
def Obligations.ConstructFailsOnAnyOtherKeyLength : Prop :=
  ∀ (s : State) (klen : Nat) (key : List Byte) (iv : Vector Byte 16) (dirv : Bool), klen ≠ 32 →
    ∃ t, exec (.construct klen key iv dirv) s = .next t ∧
      t = { s with RK := Vector.replicate 15 none, CS := none, DIR := none, READY := false
                   responses := .completion :: s.responses } ∧
      exec .isReady t = .next { t with responses := .ready false :: t.responses }

/-- log 8: the one form CONSTRUCT stops on, a KEY operand that is not KLEN = 32 bytes (R44). -/
def Obligations.ConstructRefusesKeyThatIsNotKlenBytes : Prop :=
  ∀ (s : State) (key : List Byte) (iv : Vector Byte 16) (dirv : Bool), key.length ≠ 32 →
    exec (.construct 32 key iv dirv) s = .refused .keyIsNotKlenBytes

/-- R83 case (d), R117: what CONSTRUCT leaves in RK, CS, DIR and READY does not depend on the state before it. -/
def Obligations.ConstructForgetsTheOldInstance : Prop :=
  ∀ (klen : Nat) (key : List Byte) (iv : Vector Byte 16) (dirv : Bool) (s s' t t' : State),
    exec (.construct klen key iv dirv) s = .next t → exec (.construct klen key iv dirv) s' = .next t' →
    t.RK = t'.RK ∧ t.CS = t'.CS ∧ t.DIR = t'.DIR ∧ t.READY = t'.READY ∧ t.READY = decide (klen = 32)

/-- R84's pseudocode: the response is READY, and no state changes. -/
def Obligations.IsReadyRespondsReady : Prop :=
  ∀ s : State, exec .isReady s = .next { s with responses := .ready s.READY :: s.responses }

/-- R84: over any moves of the host, READY is what the most recent CONSTRUCT or reset left, whatever PROCESS answered. -/
def Obligations.ReadyTellsWhetherTheLastConstructSucceeded : Prop :=
  ∀ (ms : List HostMove) (s t : State), run ms.length (s.facing ms) = .next t → t.READY = readyAfter s.READY ms

/-! ### PROCESS and the errors -/

/-- R94: NotReady touches nothing but the response port. -/
def Obligations.ProcessWhileNotReadyRaisesNotReady : Prop :=
  ∀ (s : State) (len : Nat), s.READY = false →
    exec (.process len) s = .next { s with responses := .status 2 :: s.responses }

/-- R93: InvalidBufferSize touches nothing but the response port. -/
def Obligations.ProcessOfBadLengthRaisesInvalidBufferSize : Prop :=
  ∀ (s : State) (len : Nat), s.READY = true → (len = 0 ∨ len % 16 ≠ 0) →
    exec (.process len) s = .next { s with responses := .status 1 :: s.responses }

/-- R95: the reserved word, whatever operands accompany it. -/
def Obligations.ReservedWordRespondsIllegalCommand : Prop :=
  ∀ (s : State) (c : Command) (rest : List HostMove), c.op = 0b00 →
    step (s.facing (.command c :: rest)) = .next { s with host := rest, responses := .status 3 :: s.responses }

/-- R99: READY is tested before the length. -/
def Obligations.NotReadyTakesPriorityOverLength : Prop :=
  ∀ (s : State) (len : Nat), s.READY = false → (len = 0 ∨ len % 16 ≠ 0) →
    ∃ t, exec (.process len) s = .next t ∧ t.responses = .status 2 :: s.responses

/-- R81: what PROCESS computes on a configured engine, its completion and its frame: the first LEN bytes become the CBC
ciphertext chained from CS, CS becomes the last block, the response is 0, the working registers of the block step hold no
value (log 11), and every other byte and field is as before. -/
def Obligations.ProcessEncryptsTheBufferInCbcMode : Prop :=
  ∀ (s : State) (ks : Fin 15 → Block) (c : Block) (p : Nat → Block) (n : Nat),
    s.READY = true → s.HoldsKeys ks → s.CS = some c → 0 < n → s.buf.HoldsBlocks p n →
    ∃ t, exec (.process (16 * n)) s = .next t ∧
      t.buf.HoldsBlocks (fun j => chain ks c p (j + 1)) n ∧
      (∀ a, 16 * n ≤ a → t.buf.read a = s.buf.read a) ∧
      t.CS = some (chain ks c p n) ∧
      t = { s with CS := t.CS, buf := t.buf, S := none, BLK := none, RND := none
                   responses := .status 0 :: s.responses, accesses := t.accesses }

/-- R34: the accesses of PROCESS, in order; the other commands, and a PROCESS that raises, make none. -/
def Obligations.ProcessReadsAndWritesEachBlockOnceInOrder : Prop :=
  (∀ (s : State) (ks : Fin 15 → Block) (c : Block) (p : Nat → Block) (n : Nat),
    s.READY = true → s.HoldsKeys ks → s.CS = some c → 0 < n → s.buf.HoldsBlocks p n →
    ∃ t, exec (.process (16 * n)) s = .next t ∧
      t.accesses = blockAccesses (chain ks c p) n ++ s.accesses ∧ (blockAccesses (chain ks c p) n).length = 2 * n) ∧
  ∀ (s t : State) (i : Instr), i.isCommand = true → exec i s = .next t →
    (s.READY = false ∨ ∀ len, i = .process len → len = 0 ∨ len % 16 ≠ 0) → t.accesses = s.accesses ∧ t.buf = s.buf

/-- R78: two PROCESS commands on buffers of valid lengths against one on their concatenation. -/
def Obligations.ChainContinuesAcrossProcessCommands : Prop :=
  ∀ (s : State) (ks : Fin 15 → Block) (c : Block) (bs bs' : List Byte),
    s.READY = true → s.HoldsKeys ks → s.CS = some c →
    0 < bs.length → bs.length % 16 = 0 → 0 < bs'.length → bs'.length % 16 = 0 →
    ∃ t t' u,
      run 2 (s.facing [.buffer bs, .command { op := 0b10, len := bs.length }]) = .next t ∧
      run 2 (t.facing [.buffer bs', .command { op := 0b10, len := bs'.length }]) = .next t' ∧
      run 2 (s.facing [.buffer (bs ++ bs'), .command { op := 0b10, len := (bs ++ bs').length }]) = .next u ∧
      u.CS = t'.CS ∧
      (∀ i < bs.length, u.buf.read i = t.buf.read i) ∧
      ∀ i < bs'.length, u.buf.read (bs.length + i) = t'.buf.read i

/-- R80 (a): two plaintexts that differ in block m alone: the ciphertext blocks differ from block m on, and agree
before. -/
def Obligations.ChangedBlockChangesEveryLaterCiphertextBlock : Prop :=
  ∀ (s s' : State) (ks : Fin 15 → Block) (c : Block) (p p' : Nat → Block) (n m : Nat),
    s.READY = true → s'.READY = true → s.HoldsKeys ks → s'.HoldsKeys ks → s.CS = some c → s'.CS = some c →
    m < n → s.buf.HoldsBlocks p n → s'.buf.HoldsBlocks p' n → p m ≠ p' m → (∀ j, j ≠ m → p j = p' j) →
    ∃ t t', exec (.process (16 * n)) s = .next t ∧ exec (.process (16 * n)) s' = .next t' ∧
      ∀ j < n, (t.buf.readBlock (16 * j) = t'.buf.readBlock (16 * j) ↔ j < m)

/-- U6 (log 5, log 6): PROCESS, CBCRUN and CBCBLOCK stop at the first buffer byte they reach that nothing has written; the
last two are run by themselves (log 9). -/
def Obligations.UnwrittenBufferByteFaults : Prop :=
  ∀ (s : State) (ks : Fin 15 → Block) (c : Block) (p : Nat → Block) (n len a : Nat),
    s.HoldsKeys ks → s.CS = some c → len % 16 = 0 → s.buf.HoldsBlocks p n →
    16 * n ≤ a → a < 16 * n + 16 → a < len → (∀ j, 16 * n ≤ j → j < a → s.buf.read j ≠ none) → s.buf.read a = none →
    (s.READY = true → exec (.process len) s = .fault (.bufferByteHasNoValue a)) ∧
    exec (.cbcRun len) s = .fault (.bufferByteHasNoValue a) ∧
    exec (.cbcBlock n) s = .fault (.bufferByteHasNoValue a)

/-! ### Whole-machine rules -/

/-- R28 (d) and (a) in part, with log 5 and log 11: every step keeps the invariant. -/
def Obligations.StepKeepsTheInvariant : Prop := ∀ s t : State, s.Inv → step s = .next t → t.Inv

/-- The invariant holds at reset, whatever the host will do. -/
def Obligations.ResetMeetsTheInvariant : Prop := ∀ ms : List HostMove, (State.reset.facing ms).Inv

/-- R14: on a path a program can reach, no register that holds no value is read. -/
def Obligations.NoStepReadsARegisterWithoutValue : Prop :=
  ∀ s : State, s.Inv → ∀ r : Reg, step s ≠ .fault (.registerHoldsNoValue r)

/-- R10, R14: "treat a read of it as a fault, never as zero". ENCRYPTBLOCK reads all of RK (R59); CBCBLOCK reads CS too
(R75). Which absent register the stop names, CS ahead of a round key and the round keys in index order, is the model's choice
(log 19), and so is running the two rows by themselves (log 9). -/
def Obligations.ReadOfARegisterWithoutValueFaults : Prop :=
  (∀ (s : State) (v : Block) (i : Fin 15), s.RK[i] = none →
    ∃ j : Fin 15, j ≤ i ∧ s.RK[j] = none ∧ exec (.encryptBlock v) s = .fault (.registerHoldsNoValue (.RK j))) ∧
  ∀ (s : State) (p : Block) (n : Nat), (∀ i < 16, s.buf.read (16 * n + i) = some (byte p i)) → s.CS = none →
    exec (.cbcBlock n) s = .fault (.registerHoldsNoValue .CS)

/-- log 5: every operation keeps the buffer's canonical form. -/
def Obligations.EveryOperationKeepsTheBufferCanonical : Prop :=
  ∀ (i : Instr) (s t : State), s.buf.wf = true → exec i s = .next t → t.buf.wf = true

/-- R28 (a), (b), (c): within an instance RK stays the EXPAND of the key, DIR its direction operand, READY 1, and CS is
the most recently written ciphertext block, or the IV if none has been written since. -/
def Obligations.ChainStateIsTheLastCiphertextBlockOrTheIv : Prop :=
  ∀ (s t : State) (key : List Byte) (iv : Vector Byte 16) (dirv : Bool) (k0 k1 : Block) (ms : List HostMove),
    keyHalves key = some (k0, k1) → (∀ m ∈ ms, m.keepsInstance = true) →
    run (ms.length + 1)
      (s.facing (.command { op := 0b01, klen := 32, key := key, iv := iv, dirv := dirv } :: ms)) = .next t →
    t.READY = true ∧ t.RK = roundKeys k0 k1 ∧ t.DIR = some dirv ∧
      ∃ new, t.accesses = new ++ s.accesses ∧ t.CS = some (lastWritten (ivValue iv) new)

/-- R15, R16, R17, R18, R29: what each move of the host may change, on a canonical buffer. -/
def Obligations.OnlyTheNamedMovesWriteEachRegister : Prop :=
  ∀ s t : State, s.buf.wf = true → step s = .next t →
    let moved (P : HostMove → Prop) := ∃ m ms, s.host = m :: ms ∧ P m
    let construct := fun m => ∃ c : Command, m = .command c ∧ c.op = 0b01
    let process := fun m => ∃ c : Command, m = .command c ∧ c.op = 0b10
    (t.RK = s.RK ∧ t.READY = s.READY ∧ t.DIR = s.DIR ∨ moved construct ∨ moved (·.isReset)) ∧
    (t.CS = s.CS ∨ moved construct ∨ moved process ∨ moved (·.isReset)) ∧
    (t.buf = s.buf ∨ moved process ∨ (moved fun m => ∃ bytes, m = .buffer bytes) ∨
      moved fun m => ∃ c : Command, m = .resetDuring c ∧ c.op = 0b10)

/-- R46: each command that completes gives exactly one response, of its kind. -/
def Obligations.EveryCommandGivesExactlyOneResponse : Prop :=
  ∀ (s t : State) (c : Command) (rest : List HostMove), step (s.facing (.command c :: rest)) = .next t →
    ∃ r, t.responses = r :: s.responses ∧
      (c.op = 0b00 → r = .status 3) ∧
      (c.op = 0b01 → r = .completion) ∧
      (c.op = 0b10 → r = .status 0 ∨ r = .status 1 ∨ r = .status 2) ∧
      (c.op = 0b11 → r = .ready s.READY)

/-- R82: "`DIR = 0` and `DIR = 1` give byte-identical results for every command sequence". -/
def Obligations.DirectionFlagHasNoEffect : Prop :=
  ∀ (k : Nat) (s s' : State), s.withoutDir = s'.withoutDir →
    seen State.withoutDir (run k s) = seen State.withoutDir (run k s')

/-- R21 (b), R73: what an earlier command left in the working registers never shows. -/
def Obligations.WorkingRegistersNeverBecomeVisible : Prop :=
  ∀ (k : Nat) (s s' : State), s.withoutWorking = s'.withoutWorking →
    seen State.withoutWorking (run k s) = seen State.withoutWorking (run k s')

/-- R103: the two operating states and how they are entered and left: by CONSTRUCT and by reset, between commands or within
one (R107, R108; log 1); every other command, a presented buffer and the idle step (log 3, log 4) keep them. -/
def Obligations.OperatingStateFollowsConstructAndReset : Prop :=
  State.reset.operating = .unconfigured ∧
  (∀ (s t : State) (klen : Nat) (key : List Byte) (iv : Vector Byte 16) (dirv : Bool),
    exec (.construct klen key iv dirv) s = .next t →
    t.operating = if klen = 32 then .configured else .unconfigured) ∧
  (∀ (s t : State) (len : Nat), exec (.process len) s = .next t → t.operating = s.operating) ∧
  (∀ s t : State, exec .isReady s = .next t ∨ exec .reserved s = .next t → t.operating = s.operating) ∧
  ∀ (s : State) (rest : List HostMove),
    (∃ t, step (s.facing (.reset :: rest)) = .next t ∧ t.operating = .unconfigured) ∧
    (∀ c t, step (s.facing (.resetDuring c :: rest)) = .next t → t.operating = .unconfigured) ∧
    (∀ bytes, ∃ t, step (s.facing (.buffer bytes :: rest)) = .next t ∧ t.operating = s.operating) ∧
    ∃ t, step (s.facing []) = .next t ∧ t.operating = s.operating

/-- R110: bring-up as the host must do it runs safely from any state and ends in a response 0. -/
def Obligations.BringUpRunsSafely : Prop :=
  ∀ (s : State) (key bs : List Byte) (iv : Vector Byte 16) (dirv : Bool),
    key.length = 32 → 0 < bs.length → bs.length % 16 = 0 →
    let start := s.facing [.command { op := 0b01, klen := 32, key := key, iv := iv, dirv := dirv },
      .command { op := 0b11 }, .buffer bs, .command { op := 0b10, len := bs.length }]
    SafeRun 4 start ∧ ∃ t, run 4 start = .next t ∧
      t.responses = .status 0 :: .ready true :: .completion :: s.responses

/-! ### The buffer port -/

/-- R30: a MemRead of sixteen written bytes gives the value whose byte i is `buf[off + i]`. -/
def Obligations.MemReadIsLittleEndian : Prop :=
  ∀ (s : State) (off : Nat), (∀ i < 16, s.buf.read (off + i) ≠ none) →
    ∃ v, memRead off s = .ok (v, { s with accesses := .read off :: s.accesses }) ∧
      ∀ i < 16, s.buf.read (off + i) = some (byte v i)

/-- R31: a MemWrite sets sixteen bytes and no other; writing back what was read leaves the buffer unchanged. -/
def Obligations.MemWriteSetsSixteenBytesAndNoOther : Prop :=
  (∀ (s : State) (off : Nat) (v : Block), ∃ m, memWrite off v s = { s with buf := m, accesses := .write off v :: s.accesses } ∧
    (∀ i < 16, m.read (off + i) = some (byte v i)) ∧ ∀ a, a < off ∨ off + 16 ≤ a → m.read a = s.buf.read a) ∧
  ∀ (s t : State) (off : Nat) (v : Block), s.buf.wf = true → memRead off s = .ok (v, t) → (memWrite off v s).buf = s.buf

/-! ### The round-function engine

That a unit operation runs by itself and where its result goes is the model's choice (log 9), here and below. -/

/-- R50 (run by itself: log 9). -/
def Obligations.XtimeDoublesInGf : Prop :=
  ∀ (b : Byte) (s : State),
    exec (.xtime b) s = .next { s with unitOut := some (.byte (
      if b.getLsbD 7 = false then b <<< 1 else (b <<< 1) ^^^ 0x1b)) }

/-- R51: the product is the sum of the doublings of `a` at the set bits of `b`; the multipliers the engine uses (run by itself: log 9). -/
def Obligations.GmulIsTheProductInGf : Prop :=
  (∀ (a b : Byte) (s : State), ∃ d : Nat → Byte, d 0 = a ∧ (∀ k, d (k + 1) = xtime (d k)) ∧
    let term := fun k => if b.getLsbD k then d k else 0
    exec (.gmul a b) s = .next { s with unitOut := some (.byte (
      term 0 ^^^ term 1 ^^^ term 2 ^^^ term 3 ^^^ term 4 ^^^ term 5 ^^^ term 6 ^^^ term 7)) }) ∧
  ∀ a : Byte, gmul a 1 = a ∧ gmul a 2 = xtime a ∧ gmul a 3 = xtime a ^^^ a ∧ gmul a 0 = 0 ∧ gmul 0 a = 0

/-- R52: the table equals its definition by the inverse in GF(2^8); it is a permutation with no fixed point (run by itself: log 9). -/
def Obligations.SboxIsTheAffineMapOfTheInverse : Prop :=
  (∀ (x : Byte) (s : State), exec (.sbox x) s = .next { s with unitOut := some (.byte (sbox x)) }) ∧
  (∀ x : Byte, ∃ y : Byte, (x = 0 → y = 0) ∧ (x ≠ 0 → gmul x y = 1) ∧
    sbox x = y ^^^ y.rotateLeft 1 ^^^ y.rotateLeft 2 ^^^ y.rotateLeft 3 ^^^ y.rotateLeft 4 ^^^ 0x63) ∧
  (∀ x y : Byte, sbox x = sbox y → x = y) ∧ (∀ y : Byte, ∃ x, sbox x = y) ∧ ∀ x : Byte, sbox x ≠ x

/-- R53 (run by itself: log 9). -/
def Obligations.SubBytesReplacesEachByte : Prop :=
  ∀ (v : Block) (s : State), ∃ w, exec (.subBytes v) s = .next { s with unitOut := some (.block w) } ∧
    ∀ i < 16, byte w i = sbox (byte v i)

/-- R54: row r of the state array rotated left by r columns; it commutes with SUBBYTES; equal bytes stay (run by itself: log 9). -/
def Obligations.ShiftRowsRotatesEachRow : Prop :=
  (∀ (v : Block) (s : State), ∃ w, exec (.shiftRows v) s = .next { s with unitOut := some (.block w) } ∧
    ∀ r < 4, ∀ c < 4, byte w (r + 4 * c) = byte v (r + 4 * ((c + r) % 4))) ∧
  (∀ v : Block, shiftRows (subBytes v) = subBytes (shiftRows v)) ∧
  ∀ (v : Block) (b : Byte), (∀ i < 16, byte v i = b) → shiftRows v = v

/-- R55: the matrix product of each column; linear; zero to zero; a column of equal bytes stays (run by itself: log 9). -/
def Obligations.MixColumnsMultipliesEachColumn : Prop :=
  (∀ (v : Block) (s : State), ∃ w, exec (.mixColumns v) s = .next { s with unitOut := some (.block w) } ∧
    ∀ c < 4,
      let a := fun k => byte v (4 * c + k)
      byte w (4 * c) = gmul (a 0) 2 ^^^ gmul (a 1) 3 ^^^ a 2 ^^^ a 3 ∧
      byte w (4 * c + 1) = a 0 ^^^ gmul (a 1) 2 ^^^ gmul (a 2) 3 ^^^ a 3 ∧
      byte w (4 * c + 2) = a 0 ^^^ a 1 ^^^ gmul (a 2) 2 ^^^ gmul (a 3) 3 ∧
      byte w (4 * c + 3) = gmul (a 0) 3 ^^^ a 1 ^^^ a 2 ^^^ gmul (a 3) 2) ∧
  (∀ x y : Block, mixColumns (x ^^^ y) = mixColumns x ^^^ mixColumns y) ∧ mixColumns 0 = 0 ∧
  ∀ (v : Block) (c : Nat) (b : Byte), c < 4 → (∀ k < 4, byte v (4 * c + k) = b) →
    ∀ k < 4, byte (mixColumns v) (4 * c + k) = b

/-- R56 (run by itself: log 9). -/
def Obligations.AddRoundKeyIsExclusiveOr : Prop :=
  (∀ (v k : Block) (s : State), exec (.addRoundKey v k) s = .next { s with unitOut := some (.block (v ^^^ k)) }) ∧
  ∀ v k w : Block, addRoundKey v v = 0 ∧ addRoundKey v 0 = v ∧ addRoundKey v k = addRoundKey k v ∧
    addRoundKey (addRoundKey v k) w = addRoundKey v (addRoundKey k w) ∧ addRoundKey (addRoundKey v k) k = v

/-- R57: the four stages in order; the key enters only in the last; all zero gives sixteen bytes 0x63 (run by itself: log 9). -/
def Obligations.EncRoundIsTheFourStages : Prop :=
  (∀ (v k : Block) (s : State), exec (.encRound v k) s = .next { s with
    unitOut := some (.block (addRoundKey (mixColumns (shiftRows (subBytes v))) k)) }) ∧
  (∀ v k : Block, encRound v k = encRound v 0 ^^^ k) ∧ ∀ i < 16, byte (encRound 0 0) i = 0x63

/-- R58: the final round, no MIXCOLUMNS (run by itself: log 9). -/
def Obligations.EncLastHasNoMixColumns : Prop :=
  (∀ (v k : Block) (s : State), exec (.encLast v k) s = .next { s with
    unitOut := some (.block (addRoundKey (shiftRows (subBytes v)) k)) }) ∧
  (∀ v k : Block, encLast v k = encLast v 0 ^^^ k) ∧ ∀ i < 16, byte (encLast 0 0) i = 0x63

/-- 40_round_function.md section 3 (R59): whitening, rounds 1 to 13, the final round; S and RND at the end; nothing else
changes but the unit's result (run by itself: log 9). -/
def Obligations.EncryptBlockRunsFourteenRounds : Prop :=
  ∀ (s : State) (ks : Fin 15 → Block) (v : Block), s.HoldsKeys ks →
    ∃ x : Fin 15 → Block,
      x 0 = v ^^^ ks 0 ∧
      (∀ r : Fin 15, 1 ≤ r.val → r.val ≤ 13 → x r = encRound (x (r - 1)) (ks r)) ∧
      x 14 = encLast (x 13) (ks 14) ∧
      exec (.encryptBlock v) s = .next { s with
        S := some (x 14), RND := some 14, unitOut := some (.block (x 14)) }

/-- R59: "It is a bijection on 128-bit values for fixed `RK`": different blocks give different results, and every value is
a result (run by itself: log 9). -/
def Obligations.EncryptBlockIsABijection : Prop :=
  ∀ (s : State) (ks : Fin 15 → Block), s.HoldsKeys ks → ∀ y : Block, ∃ v : Block,
    (∃ t, exec (.encryptBlock v) s = .next t ∧ t.unitOut = some (.block y)) ∧
    ∀ w t, exec (.encryptBlock w) s = .next t → t.unitOut = some (.block y) → w = v

/-! ### The key-schedule expander -/

/-- R63 (run by itself: log 9). -/
def Obligations.SubWordReplacesEachByte : Prop :=
  ∀ (w : Word) (s : State), ∃ u, exec (.subWord w) s = .next { s with unitOut := some (.word u) } ∧
    ∀ k < 4, wbyte u k = sbox (wbyte w k)

/-- R64: byte 1 becomes byte 0; it commutes with SUBWORD; a word of four equal bytes stays (run by itself: log 9). -/
def Obligations.RotWordMovesByteOneToByteZero : Prop :=
  (∀ (w : Word) (s : State), ∃ u, exec (.rotWord w) s = .next { s with unitOut := some (.word u) } ∧
    u = ((w >>> 8) ||| (w <<< 24)) ∧
    wbyte u 0 = wbyte w 1 ∧ wbyte u 1 = wbyte w 2 ∧ wbyte u 2 = wbyte w 3 ∧ wbyte u 3 = wbyte w 0) ∧
  (∀ w : Word, rotWord (subWord w) = subWord (rotWord w)) ∧
  ∀ (w : Word) (b : Byte), (∀ k < 4, wbyte w k = b) → rotWord w = w

/-- R66: the four words of the key-assist result (run by itself: log 9). -/
def Obligations.KeyAssistWordsAreAsTabled : Prop :=
  ∀ (x : Block) (rc : Byte) (s : State), ∃ a, exec (.keyAssist x rc) s = .next { s with unitOut := some (.block a) } ∧
    word a 3 = rotWord (subWord (word x 3)) ^^^ rc.setWidth 32 ∧
    word a 2 = subWord (word x 3) ∧
    word a 1 = rotWord (subWord (word x 1)) ^^^ rc.setWidth 32 ∧
    word a 0 = subWord (word x 1)

/-- R67 (run by itself: log 9). -/
def Obligations.BcastCopiesOneWord : Prop :=
  ∀ (a : Block) (j : Fin 4) (s : State), ∃ u, exec (.bcast a j) s = .next { s with unitOut := some (.block u) } ∧
    ∀ i < 4, word u i = word a j

/-- R68: word i of the result is the exclusive-or of words 0 to i; the other reading of NC's sentence agrees (run by itself: log 9). -/
def Obligations.DiffuseSumsThePrecedingWords : Prop :=
  ∀ (t : Block) (s : State), ∃ u, exec (.diffuse t) s = .next { s with unitOut := some (.block u) } ∧
    word u 0 = word t 0 ∧
    word u 1 = word t 0 ^^^ word t 1 ∧
    word u 2 = word t 0 ^^^ word t 1 ^^^ word t 2 ∧
    word u 3 = word t 0 ^^^ word t 1 ^^^ word t 2 ^^^ word t 3 ∧
    u = t ^^^ (t <<< 32) ^^^ (t <<< 64) ^^^ (t <<< 96)

/-- R69: the even recurrence, whole and word by word (run by itself: log 9). -/
def Obligations.KsEvenIsTheEvenRecurrence : Prop :=
  ∀ (e o : Block) (rc : Byte) (s : State), ∃ r, exec (.ksEven e o rc) s = .next { s with unitOut := some (.block r) } ∧
    r = diffuse e ^^^ bcast (keyAssist o rc) 3 ∧
    word r 0 = word e 0 ^^^ (rotWord (subWord (word o 3)) ^^^ rc.setWidth 32) ∧
    ∀ i < 3, word r (i + 1) = word e (i + 1) ^^^ word r i

/-- R70: the odd recurrence, whole and word by word (run by itself: log 9). -/
def Obligations.KsOddIsTheOddRecurrence : Prop :=
  ∀ (o e : Block) (s : State), ∃ r, exec (.ksOdd o e) s = .next { s with unitOut := some (.block r) } ∧
    r = diffuse o ^^^ bcast (keyAssist e 0) 2 ∧
    word r 0 = word o 0 ^^^ subWord (word e 3) ∧
    ∀ i < 3, word r (i + 1) = word o (i + 1) ^^^ word r i

/-- R71 and R74: the fifteen round keys by the alternating recurrence, and what EXPAND leaves in its registers; nothing
else changes (run by itself: log 9). -/
def Obligations.ExpandAlternatesTheTwoRecurrences : Prop :=
  ∀ (k0 k1 : Block) (s : State), ∃ k : Nat → Block,
    exec (.expand k0 k1) s = .next { s with
      RK := Vector.ofFn fun i => some (k i), T1 := some (k 14), T2 := some (keyAssist (k 13) 0x40), T3 := some (k 13)
      RCON := some 0x80, KIDX := some 14 } ∧
    k 0 = k0 ∧ k 1 = k1 ∧
    (∀ n, 1 ≤ n → n ≤ 7 → k (2 * n) = ksEven (k (2 * n - 2)) (k (2 * n - 1)) (0x01#8 <<< (n - 1))) ∧
    ∀ n, 1 ≤ n → n ≤ 6 → k (2 * n + 1) = ksOdd (k (2 * n - 1)) (k (2 * n))

/-- R72: the standard's word recurrence for Nk = 8 (run by itself: log 9). -/
def Obligations.ExpandMeetsTheFipsWordRecurrence : Prop :=
  ∀ (k0 k1 : Block) (s : State), ∃ (t : State) (w : Nat → Word),
    exec (.expand k0 k1) s = .next t ∧
    (∀ (i : Fin 15) (j : Nat), j < 4 → t.RK[i].map (word · j) = some (w (4 * i + j))) ∧
    (∀ j < 4, w j = word k0 j ∧ w (4 + j) = word k1 j) ∧
    ∀ i, 8 ≤ i → i ≤ 59 →
      w i = w (i - 8) ^^^
        (if i % 8 = 0 then rotWord (subWord (w (i - 1))) ^^^ (0x01#32 <<< (i / 8 - 1))
         else if i % 8 = 4 then subWord (w (i - 1)) else w (i - 1))

/-! ### The CBC chaining controller -/

/-- R75: one block step, its completion and its frame (run by itself: log 9). -/
def Obligations.CbcBlockChainsEncryptsAndStores : Prop :=
  ∀ (s : State) (ks : Fin 15 → Block) (c p : Block) (n : Nat),
    s.HoldsKeys ks → s.CS = some c → (∀ i < 16, s.buf.read (16 * n + i) = some (byte p i)) →
    ∃ t, exec (.cbcBlock n) s = .next t ∧
      t = { s with
        S := some (cipher ks (p ^^^ c)), RND := some 14, CS := some (cipher ks (p ^^^ c)), buf := t.buf
        accesses := .write (16 * n) (cipher ks (p ^^^ c)) :: .read (16 * n) :: s.accesses } ∧
      (∀ i < 16, t.buf.read (16 * n + i) = some (byte (cipher ks (p ^^^ c)) i)) ∧
      ∀ a, a < 16 * n ∨ 16 * n + 16 ≤ a → t.buf.read a = s.buf.read a

/-- R76: CBCRUN over LEN bytes is the block steps BLK = 0, 1, ... in order, BLK advanced by 1 after each; it ends with BLK =
LEN / 16. For a LEN that is no multiple of 16 this is the model's choice (log 13) (run by itself: log 9). -/
def Obligations.CbcRunIsItsBlockStepsInOrder : Prop :=
  ∀ (s : State) (ks : Fin 15 → Block) (c : Block) (p : Nat → Block) (n len : Nat),
    s.HoldsKeys ks → s.CS = some c → 0 < n → len / 16 = n → s.buf.HoldsBlocks p n →
    ∃ x : Nat → State, x 0 = { s with BLK := some 0 } ∧
      (∀ j < n, ∃ y, exec (.cbcBlock j) (x j) = .next y ∧ x (j + 1) = { y with BLK := some (j + 1) }) ∧
      exec (.cbcRun len) s = .next (x n) ∧
      (x n).buf.HoldsBlocks (fun j => chain ks c p (j + 1)) n ∧
      (∀ a, 16 * n ≤ a → (x n).buf.read a = s.buf.read a) ∧
      x n = { s with CS := some (chain ks c p n), S := some (chain ks c p n), RND := some 14, BLK := some n
                     buf := (x n).buf, accesses := blockAccesses (chain ks c p) n ++ s.accesses }
end

