-- ==== Sys2Proof/Laws/Bits.lean ====
section
/-! SUPPORT. Slices and packing (00_scope.md R8): a packed value has the bytes and words it was packed from, two values
with the same bytes or words are equal, and slices pass through exclusive-or. -/

namespace Sys2Proof.Machine

open Sys2Proof

@[simp] theorem byte_ofBytes (f : Nat → Byte) (i : Nat) (h : i < 16) : byte (ofBytes f) i = f i := by
  unfold byte ofBytes
  interval_cases i <;>
  · apply BitVec.eq_of_getLsbD_eq
    intro j hj
    simp only [BitVec.getLsbD_extractLsb', BitVec.getLsbD_append]
    interval_cases j <;> simp

theorem ofBytes_byte (v : Block) : ofBytes (byte v) = v := by
  apply BitVec.eq_of_getLsbD_eq
  intro j hj
  unfold byte ofBytes
  simp only [BitVec.getLsbD_extractLsb', BitVec.getLsbD_append]
  interval_cases j <;> simp

theorem block_ext_byte {v w : Block} (h : ∀ i < 16, byte v i = byte w i) : v = w := by
  rw [← ofBytes_byte v, ← ofBytes_byte w]
  simp [ofBytes, h]

/-- A packing depends only on the sixteen bytes it uses. -/
theorem ofBytes_congr {f g : Nat → Byte} (h : ∀ i < 16, f i = g i) : ofBytes f = ofBytes g :=
  block_ext_byte fun i hi => by simp [hi, h]

@[simp] theorem word_ofWords (f : Nat → Word) (j : Nat) (h : j < 4) : word (ofWords f) j = f j := by
  unfold word ofWords
  interval_cases j <;>
  · apply BitVec.eq_of_getLsbD_eq
    intro k hk
    simp only [BitVec.getLsbD_extractLsb', BitVec.getLsbD_append]
    interval_cases k <;> simp

theorem ofWords_word (v : Block) : ofWords (word v) = v := by
  apply BitVec.eq_of_getLsbD_eq
  intro j hj
  unfold word ofWords
  simp only [BitVec.getLsbD_extractLsb', BitVec.getLsbD_append]
  interval_cases j <;> simp

theorem block_ext_word {v w : Block} (h : ∀ j < 4, word v j = word w j) : v = w := by
  rw [← ofWords_word v, ← ofWords_word w]
  simp [ofWords, h]

@[simp] theorem wbyte_ofWbytes (f : Nat → Byte) (k : Nat) (h : k < 4) : wbyte (ofWbytes f) k = f k := by
  unfold wbyte ofWbytes
  interval_cases k <;>
  · apply BitVec.eq_of_getLsbD_eq
    intro j hj
    simp only [BitVec.getLsbD_extractLsb', BitVec.getLsbD_append]
    interval_cases j <;> simp

theorem ofWbytes_wbyte (w : Word) : ofWbytes (wbyte w) = w := by
  apply BitVec.eq_of_getLsbD_eq
  intro j hj
  unfold wbyte ofWbytes
  simp only [BitVec.getLsbD_extractLsb', BitVec.getLsbD_append]
  interval_cases j <;> simp

theorem word_ext_wbyte {v w : Word} (h : ∀ k < 4, wbyte v k = wbyte w k) : v = w := by
  rw [← ofWbytes_wbyte v, ← ofWbytes_wbyte w]
  simp [ofWbytes, h]

@[simp] theorem byte_xor (v w : Block) (i : Nat) : byte (v ^^^ w) i = byte v i ^^^ byte w i := by
  simp [byte, BitVec.extractLsb'_xor]

@[simp] theorem word_xor (v w : Block) (j : Nat) : word (v ^^^ w) j = word v j ^^^ word w j := by
  simp [word, BitVec.extractLsb'_xor]

@[simp] theorem byte_zero (i : Nat) : byte 0 i = 0 := by simp [byte]

@[simp] theorem word_zero (j : Nat) : word 0 j = 0 := by simp [word]

@[simp] theorem byteString_length (len n : Nat) : (byteString len n).length = len := by
  induction len with
  | zero => rfl
  | succ len ih => simp [byteString, ih]

end Sys2Proof.Machine
end

