-- ==== Sys2Proof/Laws/Memory.lean ====
section
/-! SUPPORT. The buffer (20_memory.md): read after write, the canonical form, and the two access primitives R30, R31. -/

namespace Sys2Proof.Machine

open Sys2Proof

namespace Memory

/-! ### One byte -/

@[simp] theorem read_nil (a : Nat) : Memory.read [] a = none := rfl

theorem read_write (m : Memory) (a : Nat) (v : Byte) (x : Nat) :
    (m.write a v).read x = if x = a then some v else m.read x := by
  induction m with
  | nil => simp [Memory.write, Memory.read]
  | cons hd tl ih =>
    obtain ⟨b, w⟩ := hd
    simp only [Memory.write]
    by_cases h1 : a < b
    · simp [h1, Memory.read]
    · by_cases h2 : a = b
      · subst h2; by_cases h3 : x = a <;> simp [Memory.read, h3]
      · simp only [h1, h2, if_false, Memory.read, ih]
        by_cases h3 : x = b
        · simp [h3, Ne.symm h2]
        · simp [h3]

theorem read_write_same (m : Memory) (a : Nat) (v : Byte) : (m.write a v).read a = some v := by simp [read_write]

theorem read_write_other (m : Memory) {a x : Nat} (v : Byte) (h : x ≠ a) : (m.write a v).read x = m.read x := by
  simp [read_write, h]

/-! ### The canonical form -/

theorem risingFrom_mono {m : Memory} {lo lo' : Nat} (h : lo' ≤ lo) (hm : m.risingFrom lo = true) :
    m.risingFrom lo' = true := by
  cases m with
  | nil => rfl
  | cons hd tl => simp only [risingFrom, Bool.and_eq_true, decide_eq_true_eq] at *; exact ⟨by omega, hm.2⟩

theorem risingFrom_write {m : Memory} {lo a : Nat} (v : Byte) (hm : m.risingFrom lo = true) (h : lo ≤ a) :
    (m.write a v).risingFrom lo = true := by
  induction m generalizing lo with
  | nil => simp [Memory.write, risingFrom, h]
  | cons hd tl ih =>
    obtain ⟨b, w⟩ := hd
    simp only [risingFrom, Bool.and_eq_true, decide_eq_true_eq] at hm
    simp only [Memory.write]
    split_ifs with h1 h2
    · simp only [risingFrom, Bool.and_eq_true, decide_eq_true_eq]; exact ⟨h, by omega, hm.2⟩
    · simp only [risingFrom, Bool.and_eq_true, decide_eq_true_eq]; exact hm
    · simp only [risingFrom, Bool.and_eq_true, decide_eq_true_eq]; exact ⟨hm.1, ih hm.2 (by omega)⟩

theorem wf_write {m : Memory} (a : Nat) (v : Byte) (hm : m.wf = true) : (m.write a v).wf = true :=
  risingFrom_write v hm (Nat.zero_le a)

theorem risingFrom_place (off : Nat) (bs : List Byte) : (Memory.place off bs).risingFrom off = true := by
  induction bs generalizing off with
  | nil => rfl
  | cons b bs ih => simp [Memory.place, risingFrom, ih]

theorem wf_place (bs : List Byte) : (Memory.place 0 bs).wf = true := risingFrom_place 0 bs

theorem read_eq_none_of_lt {m : Memory} {lo a : Nat} (hm : m.risingFrom lo = true) (h : a < lo) : m.read a = none := by
  induction m generalizing lo with
  | nil => rfl
  | cons hd tl ih =>
    obtain ⟨b, w⟩ := hd
    simp only [risingFrom, Bool.and_eq_true, decide_eq_true_eq] at hm
    simp only [Memory.read, show a ≠ b by omega, if_false]
    exact ih hm.2 (by omega)

theorem risingFrom_ext {m m' : Memory} {lo : Nat} (hm : m.risingFrom lo = true) (hm' : m'.risingFrom lo = true)
    (h : ∀ a, m.read a = m'.read a) : m = m' := by
  induction m generalizing m' lo with
  | nil =>
    cases m' with
    | nil => rfl
    | cons hd tl => have := h hd.1; simp [Memory.read] at this
  | cons hd tl ih =>
    obtain ⟨b, w⟩ := hd
    cases m' with
    | nil => have := h b; simp [Memory.read] at this
    | cons hd' tl' =>
      obtain ⟨b', w'⟩ := hd'
      simp only [risingFrom, Bool.and_eq_true, decide_eq_true_eq] at hm hm'
      have hb : b = b' := by
        rcases Nat.lt_trichotomy b b' with hlt | heq | hgt
        · have := h b
          simp only [Memory.read, if_true, show b ≠ b' by omega, if_false] at this
          rw [read_eq_none_of_lt hm'.2 (by omega)] at this; cases this
        · exact heq
        · have := h b'
          simp only [Memory.read, if_true, show b' ≠ b by omega, if_false] at this
          rw [read_eq_none_of_lt hm.2 (by omega)] at this; cases this
      subst hb
      have hw : w = w' := by have := h b; simpa [Memory.read] using this
      subst hw
      congr 1
      refine ih hm.2 hm'.2 fun a => ?_
      have ha := h a
      by_cases hab : a = b
      · subst hab
        rw [read_eq_none_of_lt hm.2 (by omega), read_eq_none_of_lt hm'.2 (by omega)]
      · simpa [Memory.read, hab] using ha

/-- In canonical form, buffers that read the same are the same data. -/
theorem ext_of_wf {m m' : Memory} (hm : m.wf = true) (hm' : m'.wf = true) (h : ∀ a, m.read a = m'.read a) : m = m' :=
  risingFrom_ext hm hm' h

/-! ### A presented buffer -/

theorem read_place (off : Nat) (bs : List Byte) (a : Nat) :
    (Memory.place off bs).read a = if off ≤ a then bs[a - off]? else none := by
  induction bs generalizing off with
  | nil => simp [Memory.place]
  | cons b bs ih =>
    simp only [Memory.place, Memory.read, ih]
    by_cases h1 : a = off
    · subst h1; simp
    · by_cases h2 : off ≤ a
      · have h3 : off + 1 ≤ a := by omega
        simp only [h1, if_false, h3, if_true, h2]
        rw [show a - off = (a - (off + 1)) + 1 by omega, List.getElem?_cons_succ]
      · simp [h1, h2, show ¬ off + 1 ≤ a by omega]

@[simp] theorem read_place_zero (bs : List Byte) (a : Nat) : (Memory.place 0 bs).read a = bs[a]? := by
  simp [read_place]

/-! ### Sixteen bytes -/

theorem read_writeBytes (m : Memory) (off : Nat) (v : Block) (n x : Nat) :
    (m.writeBytes off v n).read x = if off ≤ x ∧ x < off + n then some (byte v (x - off)) else m.read x := by
  induction n with
  | zero => simp [Memory.writeBytes]
  | succ n ih =>
    simp only [Memory.writeBytes, read_write, ih]
    by_cases h1 : x = off + n
    · subst h1; simp
    · by_cases h2 : off ≤ x ∧ x < off + n
      · simp [h1, h2, show x < off + (n + 1) by omega]
      · simp [h1, h2, show ¬ (off ≤ x ∧ x < off + (n + 1)) by omega]

/-- R31 in one line: what each byte reads as after a MemWrite. -/
theorem read_writeBlock (m : Memory) (off : Nat) (v : Block) (x : Nat) :
    (m.writeBlock off v).read x = if off ≤ x ∧ x < off + 16 then some (byte v (x - off)) else m.read x :=
  read_writeBytes m off v 16 x

theorem read_writeBlock_inside (m : Memory) (off : Nat) (v : Block) {i : Nat} (hi : i < 16) :
    (m.writeBlock off v).read (off + i) = some (byte v i) := by simp [read_writeBlock, hi]

theorem read_writeBlock_outside (m : Memory) {off x : Nat} (v : Block) (h : x < off ∨ off + 16 ≤ x) :
    (m.writeBlock off v).read x = m.read x := by
  rw [read_writeBlock, if_neg (by omega)]

theorem wf_writeBytes {m : Memory} (off : Nat) (v : Block) (n : Nat) (hm : m.wf = true) :
    (m.writeBytes off v n).wf = true := by
  induction n with
  | zero => exact hm
  | succ n ih => exact wf_write _ _ ih

theorem wf_writeBlock {m : Memory} (off : Nat) (v : Block) (hm : m.wf = true) : (m.writeBlock off v).wf = true :=
  wf_writeBytes off v 16 hm

/-! ### Missing bytes -/

theorem firstMissing_eq_none {m : Memory} {off n : Nat} :
    m.firstMissing off n = none ↔ ∀ i < n, m.read (off + i) ≠ none := by
  induction n generalizing off with
  | zero => simp [firstMissing]
  | succ n ih =>
    simp only [firstMissing]
    by_cases h : (m.read off).isSome
    · rw [if_pos h, ih]
      constructor
      · intro hh i hi
        cases i with
        | zero => exact Option.isSome_iff_ne_none.1 h
        | succ i => have := hh i (by omega); rwa [show off + (i + 1) = off + 1 + i by omega]
      · intro hh i hi
        have := hh (i + 1) (by omega); rwa [show off + 1 + i = off + (i + 1) by omega]
    · rw [if_neg h]
      simp only [reduceCtorEq, false_iff]
      intro hh
      exact hh 0 (by omega) (Option.not_isSome_iff_eq_none.1 h)

/-- The first missing byte is missing, in range, and every byte before it is there. -/
theorem firstMissing_eq_some {m : Memory} {off n a : Nat} :
    m.firstMissing off n = some a ↔
      off ≤ a ∧ a < off + n ∧ m.read a = none ∧ ∀ j, off ≤ j → j < a → m.read j ≠ none := by
  induction n generalizing off with
  | zero => simp [firstMissing]; omega
  | succ n ih =>
    simp only [firstMissing]
    by_cases h : (m.read off).isSome
    · rw [if_pos h, ih]
      have h' : m.read off ≠ none := by intro hn; simp [hn] at h
      constructor
      · rintro ⟨h1, h2, h3, h4⟩
        refine ⟨by omega, by omega, h3, fun j hj hja => ?_⟩
        by_cases hjo : j = off
        · subst hjo; exact h'
        · exact h4 j (by omega) hja
      · rintro ⟨h1, h2, h3, h4⟩
        have hao : a ≠ off := by rintro rfl; exact h' h3
        exact ⟨by omega, by omega, h3, fun j hj hja => h4 j (by omega) hja⟩
    · rw [if_neg h]
      have h' : m.read off = none := by simpa using h
      constructor
      · rintro ⟨rfl⟩; exact ⟨le_refl _, by omega, h', fun j hj hja => by omega⟩
      · rintro ⟨h1, h2, h3, h4⟩
        by_cases hao : a = off
        · rw [hao]
        · exact absurd h' (h4 off (le_refl _) (by omega))

/-! ### A buffer left by a command that was cut short -/

theorem read_mix (pick : Nat → Bool) (new m : Memory) (a : Nat) :
    (Memory.mix pick new m).read a =
      (m.read a).map fun b => if pick (a / 16) then (new.read a).getD b else b := by
  induction m with
  | nil => rfl
  | cons hd tl ih =>
    obtain ⟨b, w⟩ := hd
    simp only [Memory.mix, Memory.read]
    split_ifs with h <;> simp_all

theorem risingFrom_mix (pick : Nat → Bool) (new : Memory) {m : Memory} {lo : Nat} (h : m.risingFrom lo = true) :
    (Memory.mix pick new m).risingFrom lo = true := by
  induction m generalizing lo with
  | nil => rfl
  | cons hd tl ih =>
    simp only [Memory.mix, risingFrom, Bool.and_eq_true, decide_eq_true_eq] at *
    exact ⟨h.1, ih h.2⟩

theorem wf_mix (pick : Nat → Bool) (new : Memory) {m : Memory} (h : m.wf = true) : (Memory.mix pick new m).wf = true :=
  risingFrom_mix pick new h

/-- Mixing a buffer with itself changes nothing. -/
theorem mix_self (pick : Nat → Bool) (m : Memory) (h : m.wf = true) : Memory.mix pick m m = m :=
  ext_of_wf (wf_mix pick m h) h fun a => by rw [read_mix]; cases m.read a <;> simp

end Memory

/-! ### The access primitives -/

/-- R30: what MemRead answers when the sixteen bytes are those of a block. -/
theorem memRead_ok {s : State} {off : Nat} {p : Block} (h : ∀ i < 16, s.buf.read (off + i) = some (byte p i)) :
    memRead off s = .ok (p, { s with accesses := .read off :: s.accesses }) := by
  have h1 : s.buf.firstMissing off 16 = none := Memory.firstMissing_eq_none.2 fun i hi => by simp [h i hi]
  have h2 : s.buf.readBlock off = p := block_ext_byte fun i hi => by
    simp [Memory.readBlock, hi, h i hi]
  simp [memRead, h1, h2]

/-- Everything a MemRead that answers can do. -/
theorem memRead_inv {s t : State} {off : Nat} {p : Block} (h : memRead off s = .ok (p, t)) :
    (∀ i < 16, s.buf.read (off + i) = some (byte p i)) ∧ t = { s with accesses := .read off :: s.accesses } := by
  unfold memRead at h
  split at h
  · cases h
  · rename_i hm
    simp only [Except.ok.injEq, Prod.mk.injEq] at h
    obtain ⟨rfl, rfl⟩ := h
    refine ⟨fun i hi => ?_, rfl⟩
    have := Memory.firstMissing_eq_none.1 hm i hi
    obtain ⟨b, hb⟩ := Option.ne_none_iff_exists'.1 this
    simp [Memory.readBlock, hi, hb]

/-- A MemRead stops on a byte without a value only. -/
theorem memRead_fault {s : State} {off : Nat} {f : Fault} (h : memRead off s = .error f) :
    ∃ a, f = .bufferByteHasNoValue a ∧ off ≤ a ∧ a < off + 16 ∧ s.buf.read a = none := by
  unfold memRead at h
  split at h
  · rename_i a hm
    obtain ⟨h1, h2, h3, -⟩ := Memory.firstMissing_eq_some.1 hm
    exact ⟨a, by cases h; rfl, h1, h2, h3⟩
  · cases h

end Sys2Proof.Machine
end

