-- ==== Sys2Proof/Laws/State.lean ====
section
/-! SUPPORT. What each field of the state holds after each named update. -/

namespace Sys2Proof.Machine

open Sys2Proof

/-! ### loseInstance -/

@[simp] theorem loseInstance_RK (s : State) : (loseInstance s).RK = Vector.replicate 15 none := rfl
@[simp] theorem loseInstance_CS (s : State) : (loseInstance s).CS = none := rfl
@[simp] theorem loseInstance_READY (s : State) : (loseInstance s).READY = false := rfl
@[simp] theorem loseInstance_DIR (s : State) : (loseInstance s).DIR = none := rfl
@[simp] theorem loseInstance_S (s : State) : (loseInstance s).S = s.S := rfl
@[simp] theorem loseInstance_T1 (s : State) : (loseInstance s).T1 = s.T1 := rfl
@[simp] theorem loseInstance_T2 (s : State) : (loseInstance s).T2 = s.T2 := rfl
@[simp] theorem loseInstance_T3 (s : State) : (loseInstance s).T3 = s.T3 := rfl
@[simp] theorem loseInstance_RCON (s : State) : (loseInstance s).RCON = s.RCON := rfl
@[simp] theorem loseInstance_BLK (s : State) : (loseInstance s).BLK = s.BLK := rfl
@[simp] theorem loseInstance_RND (s : State) : (loseInstance s).RND = s.RND := rfl
@[simp] theorem loseInstance_KIDX (s : State) : (loseInstance s).KIDX = s.KIDX := rfl
@[simp] theorem loseInstance_buf (s : State) : (loseInstance s).buf = s.buf := rfl
@[simp] theorem loseInstance_unitOut (s : State) : (loseInstance s).unitOut = s.unitOut := rfl
@[simp] theorem loseInstance_responses (s : State) : (loseInstance s).responses = s.responses := rfl
@[simp] theorem loseInstance_accesses (s : State) : (loseInstance s).accesses = s.accesses := rfl
@[simp] theorem loseInstance_host (s : State) : (loseInstance s).host = s.host := rfl
@[simp] theorem loseInstance_cutShort (s : State) : (loseInstance s).cutShort = s.cutShort := rfl

/-! ### dropKeyScratch -/

@[simp] theorem dropKeyScratch_RK (s : State) : (dropKeyScratch s).RK = s.RK := rfl
@[simp] theorem dropKeyScratch_CS (s : State) : (dropKeyScratch s).CS = s.CS := rfl
@[simp] theorem dropKeyScratch_READY (s : State) : (dropKeyScratch s).READY = s.READY := rfl
@[simp] theorem dropKeyScratch_DIR (s : State) : (dropKeyScratch s).DIR = s.DIR := rfl
@[simp] theorem dropKeyScratch_S (s : State) : (dropKeyScratch s).S = s.S := rfl
@[simp] theorem dropKeyScratch_T1 (s : State) : (dropKeyScratch s).T1 = none := rfl
@[simp] theorem dropKeyScratch_T2 (s : State) : (dropKeyScratch s).T2 = none := rfl
@[simp] theorem dropKeyScratch_T3 (s : State) : (dropKeyScratch s).T3 = none := rfl
@[simp] theorem dropKeyScratch_RCON (s : State) : (dropKeyScratch s).RCON = none := rfl
@[simp] theorem dropKeyScratch_BLK (s : State) : (dropKeyScratch s).BLK = s.BLK := rfl
@[simp] theorem dropKeyScratch_RND (s : State) : (dropKeyScratch s).RND = s.RND := rfl
@[simp] theorem dropKeyScratch_KIDX (s : State) : (dropKeyScratch s).KIDX = none := rfl
@[simp] theorem dropKeyScratch_buf (s : State) : (dropKeyScratch s).buf = s.buf := rfl
@[simp] theorem dropKeyScratch_unitOut (s : State) : (dropKeyScratch s).unitOut = s.unitOut := rfl
@[simp] theorem dropKeyScratch_responses (s : State) : (dropKeyScratch s).responses = s.responses := rfl
@[simp] theorem dropKeyScratch_accesses (s : State) : (dropKeyScratch s).accesses = s.accesses := rfl
@[simp] theorem dropKeyScratch_host (s : State) : (dropKeyScratch s).host = s.host := rfl
@[simp] theorem dropKeyScratch_cutShort (s : State) : (dropKeyScratch s).cutShort = s.cutShort := rfl

/-! ### dropBlockScratch -/

@[simp] theorem dropBlockScratch_RK (s : State) : (dropBlockScratch s).RK = s.RK := rfl
@[simp] theorem dropBlockScratch_CS (s : State) : (dropBlockScratch s).CS = s.CS := rfl
@[simp] theorem dropBlockScratch_READY (s : State) : (dropBlockScratch s).READY = s.READY := rfl
@[simp] theorem dropBlockScratch_DIR (s : State) : (dropBlockScratch s).DIR = s.DIR := rfl
@[simp] theorem dropBlockScratch_S (s : State) : (dropBlockScratch s).S = none := rfl
@[simp] theorem dropBlockScratch_T1 (s : State) : (dropBlockScratch s).T1 = s.T1 := rfl
@[simp] theorem dropBlockScratch_T2 (s : State) : (dropBlockScratch s).T2 = s.T2 := rfl
@[simp] theorem dropBlockScratch_T3 (s : State) : (dropBlockScratch s).T3 = s.T3 := rfl
@[simp] theorem dropBlockScratch_RCON (s : State) : (dropBlockScratch s).RCON = s.RCON := rfl
@[simp] theorem dropBlockScratch_BLK (s : State) : (dropBlockScratch s).BLK = none := rfl
@[simp] theorem dropBlockScratch_RND (s : State) : (dropBlockScratch s).RND = none := rfl
@[simp] theorem dropBlockScratch_KIDX (s : State) : (dropBlockScratch s).KIDX = s.KIDX := rfl
@[simp] theorem dropBlockScratch_buf (s : State) : (dropBlockScratch s).buf = s.buf := rfl
@[simp] theorem dropBlockScratch_unitOut (s : State) : (dropBlockScratch s).unitOut = s.unitOut := rfl
@[simp] theorem dropBlockScratch_responses (s : State) : (dropBlockScratch s).responses = s.responses := rfl
@[simp] theorem dropBlockScratch_accesses (s : State) : (dropBlockScratch s).accesses = s.accesses := rfl
@[simp] theorem dropBlockScratch_host (s : State) : (dropBlockScratch s).host = s.host := rfl
@[simp] theorem dropBlockScratch_cutShort (s : State) : (dropBlockScratch s).cutShort = s.cutShort := rfl

/-! ### yieldUnit -/

@[simp] theorem yieldUnit_RK (r : UnitResult) (s : State) : (yieldUnit r s).RK = s.RK := rfl
@[simp] theorem yieldUnit_CS (r : UnitResult) (s : State) : (yieldUnit r s).CS = s.CS := rfl
@[simp] theorem yieldUnit_READY (r : UnitResult) (s : State) : (yieldUnit r s).READY = s.READY := rfl
@[simp] theorem yieldUnit_DIR (r : UnitResult) (s : State) : (yieldUnit r s).DIR = s.DIR := rfl
@[simp] theorem yieldUnit_S (r : UnitResult) (s : State) : (yieldUnit r s).S = s.S := rfl
@[simp] theorem yieldUnit_T1 (r : UnitResult) (s : State) : (yieldUnit r s).T1 = s.T1 := rfl
@[simp] theorem yieldUnit_T2 (r : UnitResult) (s : State) : (yieldUnit r s).T2 = s.T2 := rfl
@[simp] theorem yieldUnit_T3 (r : UnitResult) (s : State) : (yieldUnit r s).T3 = s.T3 := rfl
@[simp] theorem yieldUnit_RCON (r : UnitResult) (s : State) : (yieldUnit r s).RCON = s.RCON := rfl
@[simp] theorem yieldUnit_BLK (r : UnitResult) (s : State) : (yieldUnit r s).BLK = s.BLK := rfl
@[simp] theorem yieldUnit_RND (r : UnitResult) (s : State) : (yieldUnit r s).RND = s.RND := rfl
@[simp] theorem yieldUnit_KIDX (r : UnitResult) (s : State) : (yieldUnit r s).KIDX = s.KIDX := rfl
@[simp] theorem yieldUnit_buf (r : UnitResult) (s : State) : (yieldUnit r s).buf = s.buf := rfl
@[simp] theorem yieldUnit_unitOut (r : UnitResult) (s : State) : (yieldUnit r s).unitOut = some r := rfl
@[simp] theorem yieldUnit_responses (r : UnitResult) (s : State) : (yieldUnit r s).responses = s.responses := rfl
@[simp] theorem yieldUnit_accesses (r : UnitResult) (s : State) : (yieldUnit r s).accesses = s.accesses := rfl
@[simp] theorem yieldUnit_host (r : UnitResult) (s : State) : (yieldUnit r s).host = s.host := rfl
@[simp] theorem yieldUnit_cutShort (r : UnitResult) (s : State) : (yieldUnit r s).cutShort = s.cutShort := rfl

/-! ### respond -/

@[simp] theorem respond_RK (r : Response) (s : State) : (respond r s).RK = s.RK := rfl
@[simp] theorem respond_CS (r : Response) (s : State) : (respond r s).CS = s.CS := rfl
@[simp] theorem respond_READY (r : Response) (s : State) : (respond r s).READY = s.READY := rfl
@[simp] theorem respond_DIR (r : Response) (s : State) : (respond r s).DIR = s.DIR := rfl
@[simp] theorem respond_S (r : Response) (s : State) : (respond r s).S = s.S := rfl
@[simp] theorem respond_T1 (r : Response) (s : State) : (respond r s).T1 = s.T1 := rfl
@[simp] theorem respond_T2 (r : Response) (s : State) : (respond r s).T2 = s.T2 := rfl
@[simp] theorem respond_T3 (r : Response) (s : State) : (respond r s).T3 = s.T3 := rfl
@[simp] theorem respond_RCON (r : Response) (s : State) : (respond r s).RCON = s.RCON := rfl
@[simp] theorem respond_BLK (r : Response) (s : State) : (respond r s).BLK = s.BLK := rfl
@[simp] theorem respond_RND (r : Response) (s : State) : (respond r s).RND = s.RND := rfl
@[simp] theorem respond_KIDX (r : Response) (s : State) : (respond r s).KIDX = s.KIDX := rfl
@[simp] theorem respond_buf (r : Response) (s : State) : (respond r s).buf = s.buf := rfl
@[simp] theorem respond_unitOut (r : Response) (s : State) : (respond r s).unitOut = s.unitOut := rfl
@[simp] theorem respond_responses (r : Response) (s : State) : (respond r s).responses = r :: s.responses := rfl
@[simp] theorem respond_accesses (r : Response) (s : State) : (respond r s).accesses = s.accesses := rfl
@[simp] theorem respond_host (r : Response) (s : State) : (respond r s).host = s.host := rfl
@[simp] theorem respond_cutShort (r : Response) (s : State) : (respond r s).cutShort = s.cutShort := rfl

/-! ### raise -/

@[simp] theorem raise_RK (e : Error) (s : State) : (raise e s).RK = s.RK := rfl
@[simp] theorem raise_CS (e : Error) (s : State) : (raise e s).CS = s.CS := rfl
@[simp] theorem raise_READY (e : Error) (s : State) : (raise e s).READY = s.READY := rfl
@[simp] theorem raise_DIR (e : Error) (s : State) : (raise e s).DIR = s.DIR := rfl
@[simp] theorem raise_S (e : Error) (s : State) : (raise e s).S = s.S := rfl
@[simp] theorem raise_T1 (e : Error) (s : State) : (raise e s).T1 = s.T1 := rfl
@[simp] theorem raise_T2 (e : Error) (s : State) : (raise e s).T2 = s.T2 := rfl
@[simp] theorem raise_T3 (e : Error) (s : State) : (raise e s).T3 = s.T3 := rfl
@[simp] theorem raise_RCON (e : Error) (s : State) : (raise e s).RCON = s.RCON := rfl
@[simp] theorem raise_BLK (e : Error) (s : State) : (raise e s).BLK = s.BLK := rfl
@[simp] theorem raise_RND (e : Error) (s : State) : (raise e s).RND = s.RND := rfl
@[simp] theorem raise_KIDX (e : Error) (s : State) : (raise e s).KIDX = s.KIDX := rfl
@[simp] theorem raise_buf (e : Error) (s : State) : (raise e s).buf = s.buf := rfl
@[simp] theorem raise_unitOut (e : Error) (s : State) : (raise e s).unitOut = s.unitOut := rfl
@[simp] theorem raise_responses (e : Error) (s : State) : (raise e s).responses = e.response :: s.responses := rfl
@[simp] theorem raise_accesses (e : Error) (s : State) : (raise e s).accesses = s.accesses := rfl
@[simp] theorem raise_host (e : Error) (s : State) : (raise e s).host = s.host := rfl
@[simp] theorem raise_cutShort (e : Error) (s : State) : (raise e s).cutShort = s.cutShort := rfl

/-! ### memWrite -/

@[simp] theorem memWrite_RK (off : Nat) (v : Block) (s : State) : (memWrite off v s).RK = s.RK := by simp only [memWrite]
@[simp] theorem memWrite_CS (off : Nat) (v : Block) (s : State) : (memWrite off v s).CS = s.CS := by simp only [memWrite]
@[simp] theorem memWrite_READY (off : Nat) (v : Block) (s : State) : (memWrite off v s).READY = s.READY := by simp only [memWrite]
@[simp] theorem memWrite_DIR (off : Nat) (v : Block) (s : State) : (memWrite off v s).DIR = s.DIR := by simp only [memWrite]
@[simp] theorem memWrite_S (off : Nat) (v : Block) (s : State) : (memWrite off v s).S = s.S := by simp only [memWrite]
@[simp] theorem memWrite_T1 (off : Nat) (v : Block) (s : State) : (memWrite off v s).T1 = s.T1 := by simp only [memWrite]
@[simp] theorem memWrite_T2 (off : Nat) (v : Block) (s : State) : (memWrite off v s).T2 = s.T2 := by simp only [memWrite]
@[simp] theorem memWrite_T3 (off : Nat) (v : Block) (s : State) : (memWrite off v s).T3 = s.T3 := by simp only [memWrite]
@[simp] theorem memWrite_RCON (off : Nat) (v : Block) (s : State) : (memWrite off v s).RCON = s.RCON := by simp only [memWrite]
@[simp] theorem memWrite_BLK (off : Nat) (v : Block) (s : State) : (memWrite off v s).BLK = s.BLK := by simp only [memWrite]
@[simp] theorem memWrite_RND (off : Nat) (v : Block) (s : State) : (memWrite off v s).RND = s.RND := by simp only [memWrite]
@[simp] theorem memWrite_KIDX (off : Nat) (v : Block) (s : State) : (memWrite off v s).KIDX = s.KIDX := by simp only [memWrite]
@[simp] theorem memWrite_buf (off : Nat) (v : Block) (s : State) : (memWrite off v s).buf = s.buf.writeBlock off v := by simp only [memWrite]
@[simp] theorem memWrite_unitOut (off : Nat) (v : Block) (s : State) : (memWrite off v s).unitOut = s.unitOut := by simp only [memWrite]
@[simp] theorem memWrite_responses (off : Nat) (v : Block) (s : State) : (memWrite off v s).responses = s.responses := by simp only [memWrite]
@[simp] theorem memWrite_accesses (off : Nat) (v : Block) (s : State) : (memWrite off v s).accesses = .write off v :: s.accesses := by simp only [memWrite]
@[simp] theorem memWrite_host (off : Nat) (v : Block) (s : State) : (memWrite off v s).host = s.host := by simp only [memWrite]
@[simp] theorem memWrite_cutShort (off : Nat) (v : Block) (s : State) : (memWrite off v s).cutShort = s.cutShort := by simp only [memWrite]

/-! ### presentBuffer -/

@[simp] theorem presentBuffer_RK (bytes : List Byte) (s : State) : (presentBuffer bytes s).RK = s.RK := rfl
@[simp] theorem presentBuffer_CS (bytes : List Byte) (s : State) : (presentBuffer bytes s).CS = s.CS := rfl
@[simp] theorem presentBuffer_READY (bytes : List Byte) (s : State) : (presentBuffer bytes s).READY = s.READY := rfl
@[simp] theorem presentBuffer_DIR (bytes : List Byte) (s : State) : (presentBuffer bytes s).DIR = s.DIR := rfl
@[simp] theorem presentBuffer_S (bytes : List Byte) (s : State) : (presentBuffer bytes s).S = s.S := rfl
@[simp] theorem presentBuffer_T1 (bytes : List Byte) (s : State) : (presentBuffer bytes s).T1 = s.T1 := rfl
@[simp] theorem presentBuffer_T2 (bytes : List Byte) (s : State) : (presentBuffer bytes s).T2 = s.T2 := rfl
@[simp] theorem presentBuffer_T3 (bytes : List Byte) (s : State) : (presentBuffer bytes s).T3 = s.T3 := rfl
@[simp] theorem presentBuffer_RCON (bytes : List Byte) (s : State) : (presentBuffer bytes s).RCON = s.RCON := rfl
@[simp] theorem presentBuffer_BLK (bytes : List Byte) (s : State) : (presentBuffer bytes s).BLK = s.BLK := rfl
@[simp] theorem presentBuffer_RND (bytes : List Byte) (s : State) : (presentBuffer bytes s).RND = s.RND := rfl
@[simp] theorem presentBuffer_KIDX (bytes : List Byte) (s : State) : (presentBuffer bytes s).KIDX = s.KIDX := rfl
@[simp] theorem presentBuffer_buf (bytes : List Byte) (s : State) : (presentBuffer bytes s).buf = Memory.place 0 bytes := rfl
@[simp] theorem presentBuffer_unitOut (bytes : List Byte) (s : State) : (presentBuffer bytes s).unitOut = s.unitOut := rfl
@[simp] theorem presentBuffer_responses (bytes : List Byte) (s : State) : (presentBuffer bytes s).responses = s.responses := rfl
@[simp] theorem presentBuffer_accesses (bytes : List Byte) (s : State) : (presentBuffer bytes s).accesses = s.accesses := rfl
@[simp] theorem presentBuffer_host (bytes : List Byte) (s : State) : (presentBuffer bytes s).host = s.host := rfl
@[simp] theorem presentBuffer_cutShort (bytes : List Byte) (s : State) : (presentBuffer bytes s).cutShort = s.cutShort := rfl

/-! ### resetEngine -/

@[simp] theorem resetEngine_RK (s : State) : (resetEngine s).RK = Vector.replicate 15 none := rfl
@[simp] theorem resetEngine_CS (s : State) : (resetEngine s).CS = none := rfl
@[simp] theorem resetEngine_READY (s : State) : (resetEngine s).READY = false := rfl
@[simp] theorem resetEngine_DIR (s : State) : (resetEngine s).DIR = none := rfl
@[simp] theorem resetEngine_S (s : State) : (resetEngine s).S = none := rfl
@[simp] theorem resetEngine_T1 (s : State) : (resetEngine s).T1 = none := rfl
@[simp] theorem resetEngine_T2 (s : State) : (resetEngine s).T2 = none := rfl
@[simp] theorem resetEngine_T3 (s : State) : (resetEngine s).T3 = none := rfl
@[simp] theorem resetEngine_RCON (s : State) : (resetEngine s).RCON = none := rfl
@[simp] theorem resetEngine_BLK (s : State) : (resetEngine s).BLK = none := rfl
@[simp] theorem resetEngine_RND (s : State) : (resetEngine s).RND = none := rfl
@[simp] theorem resetEngine_KIDX (s : State) : (resetEngine s).KIDX = none := rfl
@[simp] theorem resetEngine_buf (s : State) : (resetEngine s).buf = s.buf := rfl
@[simp] theorem resetEngine_unitOut (s : State) : (resetEngine s).unitOut = none := rfl
@[simp] theorem resetEngine_responses (s : State) : (resetEngine s).responses = s.responses := rfl
@[simp] theorem resetEngine_accesses (s : State) : (resetEngine s).accesses = s.accesses := rfl
@[simp] theorem resetEngine_host (s : State) : (resetEngine s).host = s.host := rfl
@[simp] theorem resetEngine_cutShort (s : State) : (resetEngine s).cutShort = s.cutShort := rfl

/-! ### setRound -/

@[simp] theorem setRound_RK (x : Block) (r : Fin 15) (s : State) : (setRound x r s).RK = s.RK := rfl
@[simp] theorem setRound_CS (x : Block) (r : Fin 15) (s : State) : (setRound x r s).CS = s.CS := rfl
@[simp] theorem setRound_READY (x : Block) (r : Fin 15) (s : State) : (setRound x r s).READY = s.READY := rfl
@[simp] theorem setRound_DIR (x : Block) (r : Fin 15) (s : State) : (setRound x r s).DIR = s.DIR := rfl
@[simp] theorem setRound_S (x : Block) (r : Fin 15) (s : State) : (setRound x r s).S = some x := rfl
@[simp] theorem setRound_T1 (x : Block) (r : Fin 15) (s : State) : (setRound x r s).T1 = s.T1 := rfl
@[simp] theorem setRound_T2 (x : Block) (r : Fin 15) (s : State) : (setRound x r s).T2 = s.T2 := rfl
@[simp] theorem setRound_T3 (x : Block) (r : Fin 15) (s : State) : (setRound x r s).T3 = s.T3 := rfl
@[simp] theorem setRound_RCON (x : Block) (r : Fin 15) (s : State) : (setRound x r s).RCON = s.RCON := rfl
@[simp] theorem setRound_BLK (x : Block) (r : Fin 15) (s : State) : (setRound x r s).BLK = s.BLK := rfl
@[simp] theorem setRound_RND (x : Block) (r : Fin 15) (s : State) : (setRound x r s).RND = some (BitVec.ofNat 4 r) := rfl
@[simp] theorem setRound_KIDX (x : Block) (r : Fin 15) (s : State) : (setRound x r s).KIDX = s.KIDX := rfl
@[simp] theorem setRound_buf (x : Block) (r : Fin 15) (s : State) : (setRound x r s).buf = s.buf := rfl
@[simp] theorem setRound_unitOut (x : Block) (r : Fin 15) (s : State) : (setRound x r s).unitOut = s.unitOut := rfl
@[simp] theorem setRound_responses (x : Block) (r : Fin 15) (s : State) : (setRound x r s).responses = s.responses := rfl
@[simp] theorem setRound_accesses (x : Block) (r : Fin 15) (s : State) : (setRound x r s).accesses = s.accesses := rfl
@[simp] theorem setRound_host (x : Block) (r : Fin 15) (s : State) : (setRound x r s).host = s.host := rfl
@[simp] theorem setRound_cutShort (x : Block) (r : Fin 15) (s : State) : (setRound x r s).cutShort = s.cutShort := rfl

/-! ### setS -/

@[simp] theorem setS_RK (x : Block) (s : State) : (setS x s).RK = s.RK := rfl
@[simp] theorem setS_CS (x : Block) (s : State) : (setS x s).CS = s.CS := rfl
@[simp] theorem setS_READY (x : Block) (s : State) : (setS x s).READY = s.READY := rfl
@[simp] theorem setS_DIR (x : Block) (s : State) : (setS x s).DIR = s.DIR := rfl
@[simp] theorem setS_S (x : Block) (s : State) : (setS x s).S = some x := rfl
@[simp] theorem setS_T1 (x : Block) (s : State) : (setS x s).T1 = s.T1 := rfl
@[simp] theorem setS_T2 (x : Block) (s : State) : (setS x s).T2 = s.T2 := rfl
@[simp] theorem setS_T3 (x : Block) (s : State) : (setS x s).T3 = s.T3 := rfl
@[simp] theorem setS_RCON (x : Block) (s : State) : (setS x s).RCON = s.RCON := rfl
@[simp] theorem setS_BLK (x : Block) (s : State) : (setS x s).BLK = s.BLK := rfl
@[simp] theorem setS_RND (x : Block) (s : State) : (setS x s).RND = s.RND := rfl
@[simp] theorem setS_KIDX (x : Block) (s : State) : (setS x s).KIDX = s.KIDX := rfl
@[simp] theorem setS_buf (x : Block) (s : State) : (setS x s).buf = s.buf := rfl
@[simp] theorem setS_unitOut (x : Block) (s : State) : (setS x s).unitOut = s.unitOut := rfl
@[simp] theorem setS_responses (x : Block) (s : State) : (setS x s).responses = s.responses := rfl
@[simp] theorem setS_accesses (x : Block) (s : State) : (setS x s).accesses = s.accesses := rfl
@[simp] theorem setS_host (x : Block) (s : State) : (setS x s).host = s.host := rfl
@[simp] theorem setS_cutShort (x : Block) (s : State) : (setS x s).cutShort = s.cutShort := rfl

/-! ### setCS -/

@[simp] theorem setCS_RK (x : Block) (s : State) : (setCS x s).RK = s.RK := rfl
@[simp] theorem setCS_CS (x : Block) (s : State) : (setCS x s).CS = some x := rfl
@[simp] theorem setCS_READY (x : Block) (s : State) : (setCS x s).READY = s.READY := rfl
@[simp] theorem setCS_DIR (x : Block) (s : State) : (setCS x s).DIR = s.DIR := rfl
@[simp] theorem setCS_S (x : Block) (s : State) : (setCS x s).S = s.S := rfl
@[simp] theorem setCS_T1 (x : Block) (s : State) : (setCS x s).T1 = s.T1 := rfl
@[simp] theorem setCS_T2 (x : Block) (s : State) : (setCS x s).T2 = s.T2 := rfl
@[simp] theorem setCS_T3 (x : Block) (s : State) : (setCS x s).T3 = s.T3 := rfl
@[simp] theorem setCS_RCON (x : Block) (s : State) : (setCS x s).RCON = s.RCON := rfl
@[simp] theorem setCS_BLK (x : Block) (s : State) : (setCS x s).BLK = s.BLK := rfl
@[simp] theorem setCS_RND (x : Block) (s : State) : (setCS x s).RND = s.RND := rfl
@[simp] theorem setCS_KIDX (x : Block) (s : State) : (setCS x s).KIDX = s.KIDX := rfl
@[simp] theorem setCS_buf (x : Block) (s : State) : (setCS x s).buf = s.buf := rfl
@[simp] theorem setCS_unitOut (x : Block) (s : State) : (setCS x s).unitOut = s.unitOut := rfl
@[simp] theorem setCS_responses (x : Block) (s : State) : (setCS x s).responses = s.responses := rfl
@[simp] theorem setCS_accesses (x : Block) (s : State) : (setCS x s).accesses = s.accesses := rfl
@[simp] theorem setCS_host (x : Block) (s : State) : (setCS x s).host = s.host := rfl
@[simp] theorem setCS_cutShort (x : Block) (s : State) : (setCS x s).cutShort = s.cutShort := rfl

/-! ### setBLK -/

@[simp] theorem setBLK_RK (n : Nat) (s : State) : (setBLK n s).RK = s.RK := rfl
@[simp] theorem setBLK_CS (n : Nat) (s : State) : (setBLK n s).CS = s.CS := rfl
@[simp] theorem setBLK_READY (n : Nat) (s : State) : (setBLK n s).READY = s.READY := rfl
@[simp] theorem setBLK_DIR (n : Nat) (s : State) : (setBLK n s).DIR = s.DIR := rfl
@[simp] theorem setBLK_S (n : Nat) (s : State) : (setBLK n s).S = s.S := rfl
@[simp] theorem setBLK_T1 (n : Nat) (s : State) : (setBLK n s).T1 = s.T1 := rfl
@[simp] theorem setBLK_T2 (n : Nat) (s : State) : (setBLK n s).T2 = s.T2 := rfl
@[simp] theorem setBLK_T3 (n : Nat) (s : State) : (setBLK n s).T3 = s.T3 := rfl
@[simp] theorem setBLK_RCON (n : Nat) (s : State) : (setBLK n s).RCON = s.RCON := rfl
@[simp] theorem setBLK_BLK (n : Nat) (s : State) : (setBLK n s).BLK = some n := rfl
@[simp] theorem setBLK_RND (n : Nat) (s : State) : (setBLK n s).RND = s.RND := rfl
@[simp] theorem setBLK_KIDX (n : Nat) (s : State) : (setBLK n s).KIDX = s.KIDX := rfl
@[simp] theorem setBLK_buf (n : Nat) (s : State) : (setBLK n s).buf = s.buf := rfl
@[simp] theorem setBLK_unitOut (n : Nat) (s : State) : (setBLK n s).unitOut = s.unitOut := rfl
@[simp] theorem setBLK_responses (n : Nat) (s : State) : (setBLK n s).responses = s.responses := rfl
@[simp] theorem setBLK_accesses (n : Nat) (s : State) : (setBLK n s).accesses = s.accesses := rfl
@[simp] theorem setBLK_host (n : Nat) (s : State) : (setBLK n s).host = s.host := rfl
@[simp] theorem setBLK_cutShort (n : Nat) (s : State) : (setBLK n s).cutShort = s.cutShort := rfl

/-! ### expand -/

@[simp] theorem expand_RK (k0 k1 : Block) (s : State) : (expand k0 k1 s).RK = roundKeys k0 k1 := rfl
@[simp] theorem expand_CS (k0 k1 : Block) (s : State) : (expand k0 k1 s).CS = s.CS := rfl
@[simp] theorem expand_READY (k0 k1 : Block) (s : State) : (expand k0 k1 s).READY = s.READY := rfl
@[simp] theorem expand_DIR (k0 k1 : Block) (s : State) : (expand k0 k1 s).DIR = s.DIR := rfl
@[simp] theorem expand_S (k0 k1 : Block) (s : State) : (expand k0 k1 s).S = s.S := rfl
@[simp] theorem expand_T1 (k0 k1 : Block) (s : State) : (expand k0 k1 s).T1 = some (keySchedule k0 k1).t1 := rfl
@[simp] theorem expand_T2 (k0 k1 : Block) (s : State) : (expand k0 k1 s).T2 = (keySchedule k0 k1).t2 := rfl
@[simp] theorem expand_T3 (k0 k1 : Block) (s : State) : (expand k0 k1 s).T3 = some (keySchedule k0 k1).t3 := rfl
@[simp] theorem expand_RCON (k0 k1 : Block) (s : State) : (expand k0 k1 s).RCON = some (keySchedule k0 k1).rcon := rfl
@[simp] theorem expand_BLK (k0 k1 : Block) (s : State) : (expand k0 k1 s).BLK = s.BLK := rfl
@[simp] theorem expand_RND (k0 k1 : Block) (s : State) : (expand k0 k1 s).RND = s.RND := rfl
@[simp] theorem expand_KIDX (k0 k1 : Block) (s : State) : (expand k0 k1 s).KIDX = (keySchedule k0 k1).kidx := rfl
@[simp] theorem expand_buf (k0 k1 : Block) (s : State) : (expand k0 k1 s).buf = s.buf := rfl
@[simp] theorem expand_unitOut (k0 k1 : Block) (s : State) : (expand k0 k1 s).unitOut = s.unitOut := rfl
@[simp] theorem expand_responses (k0 k1 : Block) (s : State) : (expand k0 k1 s).responses = s.responses := rfl
@[simp] theorem expand_accesses (k0 k1 : Block) (s : State) : (expand k0 k1 s).accesses = s.accesses := rfl
@[simp] theorem expand_host (k0 k1 : Block) (s : State) : (expand k0 k1 s).host = s.host := rfl
@[simp] theorem expand_cutShort (k0 k1 : Block) (s : State) : (expand k0 k1 s).cutShort = s.cutShort := rfl

/-! ### installInstance -/

@[simp] theorem installInstance_RK (k0 k1 v : Block) (d : Bool) (s : State) : (installInstance k0 k1 v d s).RK = roundKeys k0 k1 := rfl
@[simp] theorem installInstance_CS (k0 k1 v : Block) (d : Bool) (s : State) : (installInstance k0 k1 v d s).CS = some v := rfl
@[simp] theorem installInstance_READY (k0 k1 v : Block) (d : Bool) (s : State) : (installInstance k0 k1 v d s).READY = true := rfl
@[simp] theorem installInstance_DIR (k0 k1 v : Block) (d : Bool) (s : State) : (installInstance k0 k1 v d s).DIR = some d := rfl
@[simp] theorem installInstance_S (k0 k1 v : Block) (d : Bool) (s : State) : (installInstance k0 k1 v d s).S = s.S := rfl
@[simp] theorem installInstance_T1 (k0 k1 v : Block) (d : Bool) (s : State) : (installInstance k0 k1 v d s).T1 = none := rfl
@[simp] theorem installInstance_T2 (k0 k1 v : Block) (d : Bool) (s : State) : (installInstance k0 k1 v d s).T2 = none := rfl
@[simp] theorem installInstance_T3 (k0 k1 v : Block) (d : Bool) (s : State) : (installInstance k0 k1 v d s).T3 = none := rfl
@[simp] theorem installInstance_RCON (k0 k1 v : Block) (d : Bool) (s : State) : (installInstance k0 k1 v d s).RCON = none := rfl
@[simp] theorem installInstance_BLK (k0 k1 v : Block) (d : Bool) (s : State) : (installInstance k0 k1 v d s).BLK = s.BLK := rfl
@[simp] theorem installInstance_RND (k0 k1 v : Block) (d : Bool) (s : State) : (installInstance k0 k1 v d s).RND = s.RND := rfl
@[simp] theorem installInstance_KIDX (k0 k1 v : Block) (d : Bool) (s : State) : (installInstance k0 k1 v d s).KIDX = none := rfl
@[simp] theorem installInstance_buf (k0 k1 v : Block) (d : Bool) (s : State) : (installInstance k0 k1 v d s).buf = s.buf := rfl
@[simp] theorem installInstance_unitOut (k0 k1 v : Block) (d : Bool) (s : State) : (installInstance k0 k1 v d s).unitOut = s.unitOut := rfl
@[simp] theorem installInstance_responses (k0 k1 v : Block) (d : Bool) (s : State) : (installInstance k0 k1 v d s).responses = s.responses := rfl
@[simp] theorem installInstance_accesses (k0 k1 v : Block) (d : Bool) (s : State) : (installInstance k0 k1 v d s).accesses = s.accesses := rfl
@[simp] theorem installInstance_host (k0 k1 v : Block) (d : Bool) (s : State) : (installInstance k0 k1 v d s).host = s.host := rfl
@[simp] theorem installInstance_cutShort (k0 k1 v : Block) (d : Bool) (s : State) : (installInstance k0 k1 v d s).cutShort = s.cutShort := rfl

/-! ### withHost -/

@[simp] theorem State.withHost_RK (s : State) (rest : List HostMove) : (s.withHost rest).RK = s.RK := rfl
@[simp] theorem State.withHost_CS (s : State) (rest : List HostMove) : (s.withHost rest).CS = s.CS := rfl
@[simp] theorem State.withHost_READY (s : State) (rest : List HostMove) : (s.withHost rest).READY = s.READY := rfl
@[simp] theorem State.withHost_DIR (s : State) (rest : List HostMove) : (s.withHost rest).DIR = s.DIR := rfl
@[simp] theorem State.withHost_S (s : State) (rest : List HostMove) : (s.withHost rest).S = s.S := rfl
@[simp] theorem State.withHost_T1 (s : State) (rest : List HostMove) : (s.withHost rest).T1 = s.T1 := rfl
@[simp] theorem State.withHost_T2 (s : State) (rest : List HostMove) : (s.withHost rest).T2 = s.T2 := rfl
@[simp] theorem State.withHost_T3 (s : State) (rest : List HostMove) : (s.withHost rest).T3 = s.T3 := rfl
@[simp] theorem State.withHost_RCON (s : State) (rest : List HostMove) : (s.withHost rest).RCON = s.RCON := rfl
@[simp] theorem State.withHost_BLK (s : State) (rest : List HostMove) : (s.withHost rest).BLK = s.BLK := rfl
@[simp] theorem State.withHost_RND (s : State) (rest : List HostMove) : (s.withHost rest).RND = s.RND := rfl
@[simp] theorem State.withHost_KIDX (s : State) (rest : List HostMove) : (s.withHost rest).KIDX = s.KIDX := rfl
@[simp] theorem State.withHost_buf (s : State) (rest : List HostMove) : (s.withHost rest).buf = s.buf := rfl
@[simp] theorem State.withHost_unitOut (s : State) (rest : List HostMove) : (s.withHost rest).unitOut = s.unitOut := rfl
@[simp] theorem State.withHost_responses (s : State) (rest : List HostMove) : (s.withHost rest).responses = s.responses := rfl
@[simp] theorem State.withHost_accesses (s : State) (rest : List HostMove) : (s.withHost rest).accesses = s.accesses := rfl
@[simp] theorem State.withHost_host (s : State) (rest : List HostMove) : (s.withHost rest).host = rest := rfl
@[simp] theorem State.withHost_cutShort (s : State) (rest : List HostMove) : (s.withHost rest).cutShort = s.cutShort := rfl

/-! ### facing -/

@[simp] theorem State.facing_RK (s : State) (ms : List HostMove) : (s.facing ms).RK = s.RK := rfl
@[simp] theorem State.facing_CS (s : State) (ms : List HostMove) : (s.facing ms).CS = s.CS := rfl
@[simp] theorem State.facing_READY (s : State) (ms : List HostMove) : (s.facing ms).READY = s.READY := rfl
@[simp] theorem State.facing_DIR (s : State) (ms : List HostMove) : (s.facing ms).DIR = s.DIR := rfl
@[simp] theorem State.facing_S (s : State) (ms : List HostMove) : (s.facing ms).S = s.S := rfl
@[simp] theorem State.facing_T1 (s : State) (ms : List HostMove) : (s.facing ms).T1 = s.T1 := rfl
@[simp] theorem State.facing_T2 (s : State) (ms : List HostMove) : (s.facing ms).T2 = s.T2 := rfl
@[simp] theorem State.facing_T3 (s : State) (ms : List HostMove) : (s.facing ms).T3 = s.T3 := rfl
@[simp] theorem State.facing_RCON (s : State) (ms : List HostMove) : (s.facing ms).RCON = s.RCON := rfl
@[simp] theorem State.facing_BLK (s : State) (ms : List HostMove) : (s.facing ms).BLK = s.BLK := rfl
@[simp] theorem State.facing_RND (s : State) (ms : List HostMove) : (s.facing ms).RND = s.RND := rfl
@[simp] theorem State.facing_KIDX (s : State) (ms : List HostMove) : (s.facing ms).KIDX = s.KIDX := rfl
@[simp] theorem State.facing_buf (s : State) (ms : List HostMove) : (s.facing ms).buf = s.buf := rfl
@[simp] theorem State.facing_unitOut (s : State) (ms : List HostMove) : (s.facing ms).unitOut = s.unitOut := rfl
@[simp] theorem State.facing_responses (s : State) (ms : List HostMove) : (s.facing ms).responses = s.responses := rfl
@[simp] theorem State.facing_accesses (s : State) (ms : List HostMove) : (s.facing ms).accesses = s.accesses := rfl
@[simp] theorem State.facing_host (s : State) (ms : List HostMove) : (s.facing ms).host = ms := rfl
@[simp] theorem State.facing_cutShort (s : State) (ms : List HostMove) : (s.facing ms).cutShort = s.cutShort := rfl

end Sys2Proof.Machine
end

