-- ==== Sys2Proof/Laws/Rfe.lean ====
section
/-! SUPPORT. The round-function engine (40_round_function.md): the bytes of each transform, ENCRYPTBLOCK as the function
`cipher` of the round keys, and everything ENCRYPTBLOCK can do. -/

namespace Sys2Proof.Machine

open Sys2Proof

/-! ### The transforms byte by byte -/

@[simp] theorem byte_subBytes (v : Block) (i : Nat) (h : i < 16) : byte (subBytes v) i = sbox (byte v i) := by
  simp [subBytes, h]

@[simp] theorem byte_shiftRows (v : Block) (i : Nat) (h : i < 16) :
    byte (shiftRows v) i = byte v (shiftRowsSource i) := by simp [shiftRows, h]

theorem byte_mixColumns (v : Block) {c k : Nat} (hc : c < 4) (hk : k < 4) :
    byte (mixColumns v) (4 * c + k) =
      mixColumn (byte v (4 * c)) (byte v (4 * c + 1)) (byte v (4 * c + 2)) (byte v (4 * c + 3)) k := by
  rw [mixColumns, byte_ofBytes _ _ (by omega)]
  simp only [show (4 * c + k) / 4 = c by omega, show (4 * c + k) % 4 = k by omega]

theorem encRound_key (v k : Block) : encRound v k = encRound v 0 ^^^ k := by
  simp [encRound, addRoundKey]

theorem encLast_key (v k : Block) : encLast v k = encLast v 0 ^^^ k := by
  simp [encLast, addRoundKey]

/-- R50: doubling is linear. -/
theorem xtime_xor (a b : Byte) : xtime (a ^^^ b) = xtime a ^^^ xtime b := by
  have h : ∀ x y z : Byte, x ^^^ z ^^^ (y ^^^ z) = x ^^^ y := fun x y z => by
    rw [BitVec.xor_comm y z, ← BitVec.xor_assoc, BitVec.xor_assoc x z z]; simp
  simp only [xtime, BitVec.getLsbD_xor, BitVec.shiftLeft_xor_distrib]
  cases a.getLsbD 7 <;> cases b.getLsbD 7 <;> simp [h, BitVec.xor_assoc]
  rw [BitVec.xor_comm (b <<< 1) 27#8]

/-! ### ENCRYPTBLOCK -/

@[simp] theorem setRound_setRound (x y : Block) (q r : Fin 15) (s : State) :
    setRound y r (setRound x q s) = setRound y r s := rfl

theorem readRK_ok {s : State} {i : Fin 15} {k : Block} (h : s.RK[i] = some k) : readRK i s = .ok k := by
  simp only [readRK, h]

theorem readRK_fault {s : State} {i : Fin 15} (h : s.RK[i] = none) :
    readRK i s = .error (.registerHoldsNoValue (.RK i)) := by
  simp only [readRK, h]

theorem HoldsKeys.setRound {s : State} {ks : Fin 15 → Block} (h : s.HoldsKeys ks) (x : Block) (r : Fin 15) :
    (setRound x r s).HoldsKeys ks := h

theorem encRounds_ok {ks : Fin 15 → Block} {s : State} (h : s.HoldsKeys ks) (rs : List (Fin 15)) (x : Block)
    (q : Fin 15) :
    encRounds rs x (setRound x q s) =
      .ok (rs.foldl (fun x r => encRound x (ks r)) x,
        setRound (rs.foldl (fun x r => encRound x (ks r)) x) (rs.getLastD q) s) := by
  induction rs generalizing x q with
  | nil => rfl
  | cons r rs ih =>
    simp only [encRounds, readRK_ok (s := setRound x q s) (h r), bind, Except.bind, setRound_setRound, List.foldl_cons,
      List.getLastD_cons]
    exact ih _ _

/-- R59: with all round keys held, ENCRYPTBLOCK returns `cipher ks v`, leaves it in S, and leaves RND at 14. -/
theorem encryptBlock_ok {ks : Fin 15 → Block} {s : State} (h : s.HoldsKeys ks) (v : Block) :
    encryptBlock v s = .ok (cipher ks v, setRound (cipher ks v) 14 s) := by
  simp only [encryptBlock, readRK_ok (h 0), bind, Except.bind, encRounds_ok h]
  rw [readRK_ok (s := setRound _ _ s) (h 14)]
  rfl

theorem encRounds_fault {s : State} (x : Block) (l : List (Fin 15)) (r : Fin 15) (l' : List (Fin 15))
    (hl : ∀ q ∈ l, s.RK[q] ≠ none) (hr : s.RK[r] = none) :
    encRounds (l ++ r :: l') x s = .error (.registerHoldsNoValue (.RK r)) := by
  induction l generalizing x s with
  | nil => simp only [List.nil_append, encRounds, readRK_fault hr]; rfl
  | cons q l ih =>
    obtain ⟨k, hk⟩ := Option.ne_none_iff_exists'.1 (hl q (by simp))
    simp only [List.cons_append, encRounds, readRK_ok hk, bind, Except.bind]
    exact ih (s := setRound _ q s) _ (fun p hp => hl p (by simp [hp])) hr

/-- A round of the full ones, the rounds before it and those after. -/
theorem fullRounds_split : ∀ i : Fin 15, i ≠ 0 → i ≠ 14 →
    fullRounds = fullRounds.take (i.val - 1) ++ i :: fullRounds.drop i.val ∧
      ∀ q ∈ fullRounds.take (i.val - 1), q < i := by decide

/-- R14: ENCRYPTBLOCK stops at the first round key that holds no value. -/
theorem encryptBlock_fault {s : State} {i : Fin 15} (hi : s.RK[i] = none) (hlt : ∀ j < i, s.RK[j] ≠ none) (v : Block) :
    encryptBlock v s = .error (.registerHoldsNoValue (.RK i)) := by
  by_cases h0 : i = 0
  · subst h0; simp only [encryptBlock, readRK_fault hi]; rfl
  · obtain ⟨k0, hk0⟩ := Option.ne_none_iff_exists'.1 (hlt 0 (Fin.pos_of_ne_zero h0))
    simp only [encryptBlock, readRK_ok hk0, bind, Except.bind]
    by_cases h14 : i = 14
    · subst h14
      have hks : ∀ j : Fin 15, ∃ k, j < 14 → s.RK[j] = some k := fun j => by
        by_cases hj : j < 14
        · obtain ⟨k, hk⟩ := Option.ne_none_iff_exists'.1 (hlt j hj); exact ⟨k, fun _ => hk⟩
        · exact ⟨0, fun h => absurd h hj⟩
      have : ∀ (rs : List (Fin 15)) (x : Block) (q : Fin 15), (∀ r ∈ rs, r < 14) →
          ∃ y p, encRounds rs x (setRound x q s) = .ok (y, setRound y p s) := by
        intro rs
        induction rs with
        | nil => intro x q _; exact ⟨x, q, rfl⟩
        | cons r rs ih =>
          intro x q hr
          obtain ⟨k, hk⟩ := hks r
          simp only [encRounds, readRK_ok (s := setRound x q s) (hk (hr r (by simp))), bind, Except.bind,
            setRound_setRound]
          exact ih _ _ fun p hp => hr p (by simp [hp])
      obtain ⟨y, p, hy⟩ := this fullRounds (addRoundKey v k0) 0 (by decide)
      rw [hy]
      simp only [readRK_fault (s := setRound y p s) hi]
    · obtain ⟨hl, hlt'⟩ := fullRounds_split i h0 h14
      rw [hl, encRounds_fault (s := setRound _ 0 s) _ _ i _ (fun q hq => hlt q (hlt' q hq)) hi]

/-- Everything ENCRYPTBLOCK can do: it returns the cipher of the round keys held, or it stops at the first that holds no
value. -/
theorem encryptBlock_cases (v : Block) (s : State) :
    (∃ ks, s.HoldsKeys ks ∧ encryptBlock v s = .ok (cipher ks v, setRound (cipher ks v) 14 s)) ∨
    ∃ i : Fin 15, s.RK[i] = none ∧ (∀ j < i, s.RK[j] ≠ none) ∧
      encryptBlock v s = .error (.registerHoldsNoValue (.RK i)) := by
  by_cases h : ∃ i : Fin 15, s.RK[i] = none
  · right
    obtain ⟨i, hi, hmin⟩ := WellFounded.has_min (wellFounded_lt (α := Fin 15)) {i | s.RK[i] = none} h
    exact ⟨i, hi, fun j hj hn => hmin j hn hj, encryptBlock_fault hi (fun j hj hn => hmin j hn hj) v⟩
  · left
    have hk : ∀ i : Fin 15, ∃ k, s.RK[i] = some k := fun i =>
      Option.ne_none_iff_exists'.1 fun hn => h ⟨i, hn⟩
    choose ks hks using hk
    exact ⟨ks, hks, encryptBlock_ok hks v⟩

/-- If ENCRYPTBLOCK answers, all round keys hold values and the answer is their cipher. -/
theorem encryptBlock_inv {v y : Block} {s t : State} (h : encryptBlock v s = .ok (y, t)) :
    ∃ ks, s.HoldsKeys ks ∧ y = cipher ks v ∧ t = setRound y 14 s := by
  rcases encryptBlock_cases v s with ⟨ks, hks, he⟩ | ⟨i, -, -, he⟩
  · rw [he] at h
    simp only [Except.ok.injEq, Prod.mk.injEq] at h
    obtain ⟨rfl, rfl⟩ := h
    exact ⟨ks, hks, rfl, rfl⟩
  · rw [he] at h; cases h

end Sys2Proof.Machine
end

