-- ==== Sys2Proof/Laws/Kse.lean ====
section
/-! SUPPORT. The key-schedule expander (41_key_schedule.md): the words of each step, and the schedule as the alternating
recurrence of R71. -/

namespace Sys2Proof.Machine

open Sys2Proof

/-! ### The steps word by word -/

@[simp] theorem wbyte_subWord (w : Word) (k : Nat) (h : k < 4) : wbyte (subWord w) k = sbox (wbyte w k) := by
  simp [subWord, h]

@[simp] theorem word_keyAssist (x : Block) (rc : Byte) (j : Nat) (h : j < 4) :
    word (keyAssist x rc) j = keyAssistWord x rc j := by simp [keyAssist, h]

@[simp] theorem word_bcast (a : Block) (j : Fin 4) (i : Nat) (h : i < 4) : word (bcast a j) i = word a j := by
  simp [bcast, h]

theorem word_shift (t : Block) (j : Nat) (h : j < 4) :
    word (t <<< 32) j = if j = 0 then 0 else word t (j - 1) := by
  apply BitVec.eq_of_getLsbD_eq
  intro k hk
  by_cases hj : j = 0
  · subst hj; simp [word, hk]
  · rw [if_neg hj]
    simp only [word, BitVec.getLsbD_extractLsb', BitVec.getLsbD_shiftLeft, hk, decide_true, Bool.true_and]
    rw [show decide (32 * j + k < 128) = true from decide_eq_true (by omega),
      show decide (32 * j + k < 32) = false from decide_eq_false (by omega),
      show 32 * j + k - 32 = 32 * (j - 1) + k by omega]
    rfl

theorem word_diffuseTurn (t : Block) (j : Nat) (h : j < 4) :
    word (diffuseTurn t) j = if j = 0 then word t 0 else word t j ^^^ word t (j - 1) := by
  rw [diffuseTurn, word_xor, word_shift t j h]
  split_ifs with hj <;> simp [hj]

/-- R68: word i of the result is the exclusive-or of words 0 to i of the operand. -/
theorem word_diffuse (t : Block) :
    word (diffuse t) 0 = word t 0 ∧ word (diffuse t) 1 = word t 0 ^^^ word t 1 ∧
    word (diffuse t) 2 = word t 0 ^^^ word t 1 ^^^ word t 2 ∧
    word (diffuse t) 3 = word t 0 ^^^ word t 1 ^^^ word t 2 ^^^ word t 3 := by
  refine ⟨?_, ?_, ?_, ?_⟩ <;> simp [diffuse, word_diffuseTurn] <;>
  · apply BitVec.eq_of_getLsbD_eq
    intro i hi
    simp only [BitVec.getLsbD_xor]
    cases (word t 0).getLsbD i <;> cases (word t 1).getLsbD i <;> cases (word t 2).getLsbD i <;>
      cases (word t 3).getLsbD i <;> rfl

/-! ### The schedule -/

/-- The round keys at positions 2n and 2n + 1 by R71's recurrence. -/
def keyPair (k0 k1 : Block) : Nat → Block × Block
  | 0 => (k0, k1)
  | n + 1 =>
    let e := ksEven (keyPair k0 k1 n).1 (keyPair k0 k1 n).2 (0x01#8 <<< n)
    (e, ksOdd (keyPair k0 k1 n).2 e)

/-- The round key at position i. -/
def roundKey (k0 k1 : Block) (i : Nat) : Block :=
  if i % 2 = 0 then (keyPair k0 k1 (i / 2)).1 else (keyPair k0 k1 (i / 2)).2

theorem keyTurn_both (n : Nat) (h : n ≤ 6) (g : KeyRegs) :
    keyTurn g n =
      { t1 := ksEven g.t1 g.t3 g.rcon
        t3 := ksOdd g.t3 (ksEven g.t1 g.t3 g.rcon)
        t2 := some (keyAssist (ksEven g.t1 g.t3 g.rcon) 0)
        rcon := xtime g.rcon
        kidx := some (BitVec.ofNat 4 (2 * n + 1))
        keys := g.keys ++ [ksEven g.t1 g.t3 g.rcon] ++ [ksOdd g.t3 (ksEven g.t1 g.t3 g.rcon)] } := by
  rw [keyTurn, if_pos h]; rfl

theorem keyTurn_last (g : KeyRegs) :
    keyTurn g 7 =
      { t1 := ksEven g.t1 g.t3 g.rcon
        t3 := g.t3
        t2 := some (keyAssist g.t3 g.rcon)
        rcon := xtime g.rcon
        kidx := some 14
        keys := g.keys ++ [ksEven g.t1 g.t3 g.rcon] } := rfl

/-- What the loop holds after `n` turns that ran both halves. -/
theorem keyTurns {k0 k1 : Block} (n : Nat) (h : n < 6) {g : KeyRegs} (h1 : g.t1 = (keyPair k0 k1 n).1)
    (h3 : g.t3 = (keyPair k0 k1 n).2) (hr : g.rcon = 0x01#8 <<< n) (hk : g.keys = (List.range (2 * n + 2)).map (roundKey k0 k1)) :
    let g' := keyTurn g (n + 1)
    g'.t1 = (keyPair k0 k1 (n + 1)).1 ∧ g'.t3 = (keyPair k0 k1 (n + 1)).2 ∧ g'.rcon = 0x01#8 <<< (n + 1) ∧
      g'.keys = (List.range (2 * (n + 1) + 2)).map (roundKey k0 k1) := by
  simp only [keyTurn_both (n + 1) (by omega), h1, h3, hr, hk]
  refine ⟨rfl, rfl, ?_, ?_⟩
  · clear hk h1 h3 hr; interval_cases n <;> decide
  · rw [show 2 * (n + 1) + 2 = 2 * n + 2 + 1 + 1 by omega, List.range_succ (n := 2 * n + 2 + 1),
      List.range_succ (n := 2 * n + 2)]
    simp [roundKey, keyPair, show (2 * n + 2) / 2 = n + 1 by omega, show (2 * n + 2 + 1) / 2 = n + 1 by omega,
      show (2 * n + 2 + 1) % 2 = 1 by omega]

/-- R71 and R74: what EXPAND's loop leaves. -/
theorem keySchedule_eq (k0 k1 : Block) :
    keySchedule k0 k1 =
      { t1 := roundKey k0 k1 14, t3 := roundKey k0 k1 13, t2 := some (keyAssist (roundKey k0 k1 13) 0x40)
        rcon := 0x80, kidx := some 14, keys := (List.range 15).map (roundKey k0 k1) } := by
  obtain ⟨a1, a2, a3, a4⟩ := keyTurns (k0 := k0) (k1 := k1) 0 (by omega) (g := keyStart k0 k1) rfl rfl rfl rfl
  obtain ⟨b1, b2, b3, b4⟩ := keyTurns 1 (by omega) a1 a2 a3 a4
  obtain ⟨c1, c2, c3, c4⟩ := keyTurns 2 (by omega) b1 b2 b3 b4
  obtain ⟨d1, d2, d3, d4⟩ := keyTurns 3 (by omega) c1 c2 c3 c4
  obtain ⟨e1, e2, e3, e4⟩ := keyTurns 4 (by omega) d1 d2 d3 d4
  obtain ⟨f1, f2, f3, f4⟩ := keyTurns 5 (by omega) e1 e2 e3 e4
  simp only [keySchedule, List.foldl_cons, List.foldl_nil]
  rw [keyTurn_last]
  simp only [f1, f2, f3, f4]
  rfl

theorem roundKeys_eq (k0 k1 : Block) : roundKeys k0 k1 = Vector.ofFn fun i => some (roundKey k0 k1 i) := by
  rw [roundKeys, keySchedule_eq]
  congr 1; funext i
  simp [i.isLt]

theorem roundKeys_get (k0 k1 : Block) (i : Fin 15) : (roundKeys k0 k1)[i] = some (roundKey k0 k1 i) := by
  simp [roundKeys_eq]

/-- R28 (a): the EXPAND of a key fills every round-key register. -/
theorem HoldsKeys.of_roundKeys {s : State} {k0 k1 : Block} (h : s.RK = roundKeys k0 k1) :
    s.HoldsKeys fun i => roundKey k0 k1 i := fun i => by rw [h]; exact roundKeys_get k0 k1 i

end Sys2Proof.Machine
end

