-- ==== Sys2Proof/Laws/Ccc.lean ====
section
/-! SUPPORT. The CBC chaining controller (42_cbc_controller.md): everything one block step and the block loop can do. -/

namespace Sys2Proof.Machine

open Sys2Proof

@[simp] theorem blockOffset_eq (n : Nat) : blockOffset n = 16 * n := rfl

@[simp] theorem blockCount_mul (n : Nat) : blockCount (16 * n) = n := by simp [blockCount]

/-! ### The chain (R81) -/

/-- The chain value after `n` blocks depends on those blocks only. -/
theorem chain_congr {ks : Fin 15 → Block} {c : Block} {p q : Nat → Block} {n : Nat} (h : ∀ j < n, p j = q j) :
    chain ks c p n = chain ks c q n := by
  induction n with
  | zero => rfl
  | succ n ih => simp only [chain]; rw [ih fun j hj => h j (by omega), h n (by omega)]

/-- A chain goes on from its value after `m` blocks. -/
theorem chain_add {ks : Fin 15 → Block} {c : Block} {p : Nat → Block} (m n : Nat) :
    chain ks c p (m + n) = chain ks (chain ks c p m) (fun j => p (m + j)) n := by
  induction n with
  | zero => rfl
  | succ n ih => rw [← Nat.add_assoc]; simp only [chain, ih]

/-! ### One block -/

/-- What CBCBLOCK leaves when it writes `y` (R75): `S`, `RND`, `CS`, the sixteen bytes, and the two accesses. -/
def afterBlock (n : Nat) (y : Block) (s : State) : State :=
  { s with
    S := some y
    RND := some 14
    CS := some y
    buf := s.buf.writeBlock (16 * n) y
    accesses := .write (16 * n) y :: .read (16 * n) :: s.accesses }

@[simp] theorem afterBlock_RK (n : Nat) (y : Block) (s : State) : (afterBlock n y s).RK = s.RK := by simp only [afterBlock]
@[simp] theorem afterBlock_CS (n : Nat) (y : Block) (s : State) : (afterBlock n y s).CS = some y := by simp only [afterBlock]
@[simp] theorem afterBlock_READY (n : Nat) (y : Block) (s : State) : (afterBlock n y s).READY = s.READY := by simp only [afterBlock]
@[simp] theorem afterBlock_DIR (n : Nat) (y : Block) (s : State) : (afterBlock n y s).DIR = s.DIR := by simp only [afterBlock]
@[simp] theorem afterBlock_S (n : Nat) (y : Block) (s : State) : (afterBlock n y s).S = some y := by simp only [afterBlock]
@[simp] theorem afterBlock_T1 (n : Nat) (y : Block) (s : State) : (afterBlock n y s).T1 = s.T1 := by simp only [afterBlock]
@[simp] theorem afterBlock_T2 (n : Nat) (y : Block) (s : State) : (afterBlock n y s).T2 = s.T2 := by simp only [afterBlock]
@[simp] theorem afterBlock_T3 (n : Nat) (y : Block) (s : State) : (afterBlock n y s).T3 = s.T3 := by simp only [afterBlock]
@[simp] theorem afterBlock_RCON (n : Nat) (y : Block) (s : State) : (afterBlock n y s).RCON = s.RCON := by simp only [afterBlock]
@[simp] theorem afterBlock_BLK (n : Nat) (y : Block) (s : State) : (afterBlock n y s).BLK = s.BLK := by simp only [afterBlock]
@[simp] theorem afterBlock_RND (n : Nat) (y : Block) (s : State) : (afterBlock n y s).RND = some 14 := by simp only [afterBlock]
@[simp] theorem afterBlock_KIDX (n : Nat) (y : Block) (s : State) : (afterBlock n y s).KIDX = s.KIDX := by simp only [afterBlock]
@[simp] theorem afterBlock_buf (n : Nat) (y : Block) (s : State) : (afterBlock n y s).buf = s.buf.writeBlock (16 * n) y := by simp only [afterBlock]
@[simp] theorem afterBlock_unitOut (n : Nat) (y : Block) (s : State) : (afterBlock n y s).unitOut = s.unitOut := by simp only [afterBlock]
@[simp] theorem afterBlock_responses (n : Nat) (y : Block) (s : State) : (afterBlock n y s).responses = s.responses := by simp only [afterBlock]
@[simp] theorem afterBlock_accesses (n : Nat) (y : Block) (s : State) : (afterBlock n y s).accesses = .write (16 * n) y :: .read (16 * n) :: s.accesses := by simp only [afterBlock]
@[simp] theorem afterBlock_host (n : Nat) (y : Block) (s : State) : (afterBlock n y s).host = s.host := by simp only [afterBlock]
@[simp] theorem afterBlock_cutShort (n : Nat) (y : Block) (s : State) : (afterBlock n y s).cutShort = s.cutShort := by simp only [afterBlock]

theorem readCS_ok {s : State} {c : Block} (h : s.CS = some c) : readCS s = .ok c := by simp only [readCS, h]

theorem readCS_fault {s : State} (h : s.CS = none) : readCS s = .error (.registerHoldsNoValue .CS) := by
  simp only [readCS, h]

/-- R75 with everything held. -/
theorem cbcBlock_ok {s : State} {ks : Fin 15 → Block} {c p : Block} {n : Nat} (hk : s.HoldsKeys ks)
    (hc : s.CS = some c) (hp : ∀ i < 16, s.buf.read (16 * n + i) = some (byte p i)) :
    cbcBlock n s = .ok (afterBlock n (cipher ks (p ^^^ c)) s) := by
  simp only [cbcBlock, blockOffset_eq, memRead_ok hp, bind, Except.bind]
  rw [readCS_ok (c := c) (by simpa using hc)]
  simp only []
  rw [encryptBlock_ok (ks := ks) (by exact hk)]
  rfl

/-- Everything CBCBLOCK can do: a block step with everything held; a buffer byte without a value; CS or a round key
without a value. -/
theorem cbcBlock_cases (n : Nat) (s : State) :
    (∃ ks c p, s.HoldsKeys ks ∧ s.CS = some c ∧ (∀ i < 16, s.buf.read (16 * n + i) = some (byte p i)) ∧
      cbcBlock n s = .ok (afterBlock n (cipher ks (p ^^^ c)) s)) ∨
    (∃ a, s.buf.firstMissing (16 * n) 16 = some a ∧ cbcBlock n s = .error (.bufferByteHasNoValue a)) ∨
    (s.buf.firstMissing (16 * n) 16 = none ∧ s.CS = none ∧ cbcBlock n s = .error (.registerHoldsNoValue .CS)) ∨
    ∃ i : Fin 15, s.RK[i] = none ∧ cbcBlock n s = .error (.registerHoldsNoValue (.RK i)) := by
  cases hm : s.buf.firstMissing (16 * n) 16 with
  | some a => right; left; exact ⟨a, rfl, by simp [cbcBlock, memRead, hm, bind, Except.bind]⟩
  | none =>
    have hr : memRead (16 * n) s = .ok (s.buf.readBlock (16 * n), { s with accesses := .read (16 * n) :: s.accesses }) := by
      simp [memRead, hm]
    obtain ⟨hp, -⟩ := memRead_inv hr
    cases hc : s.CS with
    | none =>
      right; right; left
      refine ⟨rfl, rfl, ?_⟩
      simp only [cbcBlock, blockOffset_eq, hr, bind, Except.bind]
      rw [readCS_fault (by simpa using hc)]
    | some c =>
      rcases encryptBlock_cases 0 s with ⟨ks, hk, -⟩ | ⟨i, hi, hlt, -⟩
      · left; exact ⟨ks, c, _, hk, rfl, hp, cbcBlock_ok hk hc hp⟩
      · right; right; right
        refine ⟨i, hi, ?_⟩
        simp only [cbcBlock, blockOffset_eq, hr, bind, Except.bind]
        rw [readCS_ok (c := c) (by simpa using hc)]
        simp only []
        rw [encryptBlock_fault (i := i) (by exact hi) (by exact hlt)]

/-- If CBCBLOCK answers, everything was held and the answer is R75's. -/
theorem cbcBlock_inv {n : Nat} {s t : State} (h : cbcBlock n s = .ok t) :
    ∃ ks c p, s.HoldsKeys ks ∧ s.CS = some c ∧ (∀ i < 16, s.buf.read (16 * n + i) = some (byte p i)) ∧
      t = afterBlock n (cipher ks (p ^^^ c)) s := by
  rcases cbcBlock_cases n s with ⟨ks, c, p, hk, hc, hp, he⟩ | ⟨a, -, he⟩ | ⟨-, -, he⟩ | ⟨i, -, he⟩ <;> rw [he] at h
  · exact ⟨ks, c, p, hk, hc, hp, by cases h; rfl⟩
  all_goals cases h

/-! ### The loop -/

/-- Packaged induction: what every block step keeps, with BLK moved on, the loop keeps. -/
theorem cbcLoop_induction {P : State → Prop} (hstep : ∀ n s t, P s → cbcBlock n s = .ok t → P (setBLK (n + 1) t))
    {todo blk : Nat} {s t : State} (hs : P s) (h : cbcLoop todo blk s = .ok t) : P t := by
  induction todo generalizing blk s with
  | zero => cases h; exact hs
  | succ todo ih =>
    simp only [cbcLoop, bind, Except.bind] at h
    split at h
    · cases h
    · rename_i t' ht'; exact ih (hstep _ _ _ hs ht') h

/-- The state after block steps `blk .. blk + todo - 1` that wrote `y blk ..`. -/
def afterBlocks (y : Nat → Block) : (todo blk : Nat) → State → State
  | 0, _, s => s
  | todo + 1, blk, s => afterBlocks y todo (blk + 1) (setBLK (blk + 1) (afterBlock blk (y blk) s))

/-- The fields no block step writes. -/
theorem afterBlocks_frame (y : Nat → Block) (todo blk : Nat) (s : State) :
    let t := afterBlocks y todo blk s
    t = { s with S := t.S, RND := t.RND, CS := t.CS, BLK := t.BLK, buf := t.buf, accesses := t.accesses } := by
  induction todo generalizing blk s with
  | zero => rfl
  | succ todo ih =>
    have := ih (blk + 1) (setBLK (blk + 1) (afterBlock blk (y blk) s))
    simp only [afterBlocks]
    generalize afterBlocks y todo (blk + 1) (setBLK (blk + 1) (afterBlock blk (y blk) s)) = u at this
    rw [this]; rfl

theorem afterBlocks_read (y : Nat → Block) (todo blk : Nat) (s : State) :
    (∀ j i, blk ≤ j → j < blk + todo → i < 16 →
      (afterBlocks y todo blk s).buf.read (16 * j + i) = some (byte (y j) i)) ∧
    ∀ a, a < 16 * blk ∨ 16 * (blk + todo) ≤ a → (afterBlocks y todo blk s).buf.read a = s.buf.read a := by
  induction todo generalizing blk s with
  | zero => exact ⟨fun j i h1 h2 _ => by omega, fun a _ => rfl⟩
  | succ todo ih =>
    obtain ⟨h1, h2⟩ := ih (blk + 1) (setBLK (blk + 1) (afterBlock blk (y blk) s))
    refine ⟨fun j i hj hj' hi => ?_, fun a ha => ?_⟩
    · by_cases hjb : j = blk
      · subst hjb
        simp only [afterBlocks]
        rw [h2 _ (by omega), setBLK_buf, afterBlock_buf]
        exact Memory.read_writeBlock_inside _ _ _ hi
      · exact h1 j i (by omega) (by omega) hi
    · simp only [afterBlocks]
      rw [h2 a (by omega), setBLK_buf, afterBlock_buf]
      exact Memory.read_writeBlock_outside _ _ (by omega)

/-- R76 and R81: with everything held, the loop from block `blk` on runs its block steps, the chain value passing from
each to the next. -/
theorem cbcLoop_ok {ks : Fin 15 → Block} {p : Nat → Block} {c0 : Block} (todo blk : Nat) {s : State}
    (hk : s.HoldsKeys ks) (hc : s.CS = some (chain ks c0 p blk))
    (hp : ∀ j i, blk ≤ j → j < blk + todo → i < 16 → s.buf.read (16 * j + i) = some (byte (p j) i)) :
    cbcLoop todo blk s = .ok (afterBlocks (fun j => chain ks c0 p (j + 1)) todo blk s) := by
  induction todo generalizing blk s with
  | zero => rfl
  | succ todo ih =>
    simp only [cbcLoop, bind, Except.bind, afterBlocks]
    rw [cbcBlock_ok hk hc fun i hi => hp blk i (le_refl _) (by omega) hi]
    exact ih (blk + 1) hk rfl fun j i hj hj' hi => by
      rw [← hp j i (by omega) (by omega) hi, setBLK_buf, afterBlock_buf]
      exact Memory.read_writeBlock_outside _ _ (by omega)

theorem afterBlocks_end (y : Nat → Block) (todo blk : Nat) (s : State) :
    let t := afterBlocks y (todo + 1) blk s
    t.S = some (y (blk + todo)) ∧ t.RND = some 14 ∧ t.CS = some (y (blk + todo)) ∧ t.BLK = some (blk + todo + 1) := by
  induction todo generalizing blk s with
  | zero => exact ⟨rfl, rfl, rfl, rfl⟩
  | succ todo ih =>
    have := ih (blk + 1) (setBLK (blk + 1) (afterBlock blk (y blk) s))
    rw [show blk + 1 + todo = blk + (todo + 1) by omega] at this
    exact this

theorem afterBlocks_succ (y : Nat → Block) (todo blk : Nat) (s : State) :
    afterBlocks y (todo + 1) blk s =
      setBLK (blk + todo + 1) (afterBlock (blk + todo) (y (blk + todo)) (afterBlocks y todo blk s)) := by
  induction todo generalizing blk s with
  | zero => rfl
  | succ todo ih =>
    rw [afterBlocks, ih, show blk + 1 + todo = blk + (todo + 1) by omega]
    rfl

/-- R34: the accesses of the loop from block 0. -/
theorem afterBlocks_accesses (c : Nat → Block) (n : Nat) (s : State) :
    (afterBlocks (fun j => c (j + 1)) n 0 s).accesses = blockAccesses c n ++ s.accesses := by
  induction n with
  | zero => rfl
  | succ n ih =>
    rw [afterBlocks_succ]
    simp only [setBLK_accesses, afterBlock, ih, Nat.zero_add]
    rfl

/-- CBCRUN over `n` blocks with everything held. -/
theorem cbcRun_ok {ks : Fin 15 → Block} {p : Nat → Block} {c : Block} {n : Nat} {s : State} (hk : s.HoldsKeys ks)
    (hc : s.CS = some c) (hp : s.buf.HoldsBlocks p n) :
    cbcRun (16 * n) s = .ok (afterBlocks (fun j => chain ks c p (j + 1)) n 0 (setBLK 0 s)) := by
  rw [cbcRun, blockCount_mul]
  exact cbcLoop_ok n 0 hk hc fun j i _ hj hi => hp j (by omega) i hi

/-- A run that answers kept whatever every block step keeps. -/
theorem cbcRun_induction {P : State → Prop} (hstep : ∀ n s t, P s → cbcBlock n s = .ok t → P (setBLK (n + 1) t))
    {len : Nat} {s t : State} (hs : P (setBLK 0 s)) (h : cbcRun len s = .ok t) : P t :=
  cbcLoop_induction hstep hs h

/-- A run stops only as one of its block steps does. -/
theorem cbcLoop_fault {f : Fault} {todo blk : Nat} {s : State} (h : cbcLoop todo blk s = .error f) :
    (∃ a, f = .bufferByteHasNoValue a) ∨
      (∃ i : Fin 15, s.RK[i] = none ∧ f = .registerHoldsNoValue (.RK i)) ∨
      s.CS = none ∧ f = .registerHoldsNoValue .CS := by
  induction todo generalizing blk s with
  | zero => cases h
  | succ todo ih =>
    simp only [cbcLoop, bind, Except.bind] at h
    rcases cbcBlock_cases blk s with ⟨ks, c, p, -, -, -, he⟩ | ⟨a, -, he⟩ | ⟨-, hc, he⟩ | ⟨i, hi, he⟩ <;> rw [he] at h
    · rcases ih h with ⟨a, rfl⟩ | ⟨i, hi, rfl⟩ | ⟨hn, -⟩
      · exact .inl ⟨a, rfl⟩
      · exact .inr (.inl ⟨i, hi, rfl⟩)
      · cases hn
    · exact .inl ⟨a, by cases h; rfl⟩
    · exact .inr (.inr ⟨hc, by cases h; rfl⟩)
    · exact .inr (.inl ⟨i, hi, by cases h; rfl⟩)

end Sys2Proof.Machine
end

