-- ==== Sys2Proof/Laws/Commands.lean ====
section
/-! SUPPORT. Everything a command and a step can do (43_commands.md R83 to R85, 60_exceptions.md R95). -/

namespace Sys2Proof.Machine

open Sys2Proof

/-! ### Operands and responses -/

theorem keyLengthOk_iff (klen : Nat) : keyLengthOk klen = true ↔ klen = 32 := by simp [keyLengthOk]

theorem lengthOk_iff (len : Nat) : lengthOk len = true ↔ 0 < len ∧ len % 16 = 0 := by simp [lengthOk]

theorem keyHalves_some {key : List Byte} (h : key.length = 32) :
    keyHalves key = some (ofBytes fun i => key.getD i 0, ofBytes fun i => key.getD (16 + i) 0) := by
  simp [keyHalves, h]

theorem keyHalves_none {key : List Byte} (h : key.length ≠ 32) : keyHalves key = none := by simp [keyHalves, h]

theorem keyHalves_length {key : List Byte} {k : Block × Block} (h : keyHalves key = some k) : key.length = 32 := by
  by_contra hn; rw [keyHalves_none hn] at h; cases h

/-- R44: the bytes of the assembled IV. -/
theorem byte_ivValue (iv : Vector Byte 16) {i : Nat} (hi : i < 16) : byte (ivValue iv) i = iv[i] := by
  simp [ivValue, hi, List.getD]

@[simp] theorem response_constructionFailure : Error.constructionFailure.response = .completion := rfl
@[simp] theorem response_invalidBufferSize : Error.invalidBufferSize.response = .status 1 := rfl
@[simp] theorem response_notReady : Error.notReady.response = .status 2 := rfl
@[simp] theorem response_illegalCommand : Error.illegalCommand.response = .status 3 := rfl

/-! ### The commands -/

/-- Everything CONSTRUCT can do (R83). -/
theorem execConstruct_cases (klen : Nat) (key : List Byte) (iv : Vector Byte 16) (dirv : Bool) (s : State) :
    (klen ≠ 32 ∧ execConstruct klen key iv dirv s = .next (raise .constructionFailure (loseInstance s))) ∨
    (∃ k0 k1, klen = 32 ∧ keyHalves key = some (k0, k1) ∧ execConstruct klen key iv dirv s =
      .next (respond .completion (installInstance k0 k1 (ivValue iv) dirv s))) ∨
    (klen = 32 ∧ key.length ≠ 32 ∧ execConstruct klen key iv dirv s = .refused .keyIsNotKlenBytes) := by
  by_cases hl : klen = 32
  · right
    by_cases hk : key.length = 32
    · left; exact ⟨_, _, hl, keyHalves_some hk, by simp [execConstruct, keyLengthOk, hl, keyHalves_some hk]⟩
    · right; exact ⟨hl, hk, by simp [execConstruct, keyLengthOk, hl, keyHalves_none hk]⟩
  · left; exact ⟨hl, by simp [execConstruct, keyLengthOk, hl]⟩

/-- Everything PROCESS can do (R85). -/
theorem execProcess_cases (len : Nat) (s : State) :
    (s.READY = false ∧ execProcess len s = .next (raise .notReady s)) ∨
    (s.READY = true ∧ (len = 0 ∨ len % 16 ≠ 0) ∧ execProcess len s = .next (raise .invalidBufferSize s)) ∨
    (s.READY = true ∧ 0 < len ∧ len % 16 = 0 ∧
      ((∃ t, cbcRun len s = .ok t ∧
          execProcess len s = .next (respond (.status 0) (dropBlockScratch t))) ∨
        ∃ f, cbcRun len s = .error f ∧ execProcess len s = .fault f)) := by
  cases hr : s.READY with
  | false => left; exact ⟨rfl, by simp [execProcess, hr]⟩
  | true =>
    right
    by_cases hl : 0 < len ∧ len % 16 = 0
    · right
      refine ⟨rfl, hl.1, hl.2, ?_⟩
      have hl' : lengthOk len = true := (lengthOk_iff len).2 hl
      cases hc : cbcRun len s with
      | ok t => left; exact ⟨t, rfl, by simp [execProcess, hr, hl', hc, finish, bind, Except.bind, pure, Except.pure, statusOk]⟩
      | error f => right; exact ⟨f, rfl, by simp [execProcess, hr, hl', hc, finish, bind, Except.bind]⟩
    · left
      have hl' : lengthOk len = false := by simpa [← Bool.not_eq_true, lengthOk_iff] using hl
      refine ⟨rfl, by omega, by simp [execProcess, hr, hl']⟩

/-- PROCESS over `n` blocks on a configured engine with everything held. -/
theorem execProcess_ok {s : State} {ks : Fin 15 → Block} {c : Block} {p : Nat → Block} {n : Nat} (hr : s.READY = true)
    (hk : s.HoldsKeys ks) (hc : s.CS = some c) (hn : 0 < n) (hp : s.buf.HoldsBlocks p n) :
    execProcess (16 * n) s = .next (respond (.status 0) (dropBlockScratch
      (afterBlocks (fun j => chain ks c p (j + 1)) n 0 (setBLK 0 s)))) := by
  have hl : lengthOk (16 * n) = true := by rw [lengthOk_iff]; omega
  simp only [execProcess, hr, hl, cbcRun_ok hk hc hp, finish]
  rfl

/-! ### The step -/

@[simp] theorem step_idle (s : State) : step (s.facing []) = .next (s.facing []) := rfl

@[simp] theorem step_command (s : State) (c : Command) (rest : List HostMove) :
    step (s.facing (.command c :: rest)) = exec (decode c) (s.facing rest) := rfl

@[simp] theorem step_buffer (s : State) (bytes : List Byte) (rest : List HostMove) :
    step (s.facing (.buffer bytes :: rest)) = .next (presentBuffer bytes (s.facing rest)) := rfl

@[simp] theorem step_reset (s : State) (rest : List HostMove) :
    step (s.facing (.reset :: rest)) = .next (resetEngine (s.facing rest)) := rfl

@[simp] theorem step_resetDuring (s : State) (c : Command) (rest : List HostMove) :
    step (s.facing (.resetDuring c :: rest)) =
      match exec (decode c) (s.facing rest) with
      | .next t => .next (cutByReset (s.facing rest) t)
      | .fault f => .fault f
      | .refused r => .refused r := rfl

/-- A command that reset cuts short and that answers would have answered whole. -/
theorem step_resetDuring_inv {s u : State} {c : Command} {rest : List HostMove}
    (h : step (s.facing (.resetDuring c :: rest)) = .next u) :
    ∃ t, exec (decode c) (s.facing rest) = .next t ∧ u = cutByReset (s.facing rest) t := by
  rw [step_resetDuring] at h
  cases he : exec (decode c) (s.facing rest) with
  | next t => rw [he] at h; cases h; exact ⟨t, rfl, rfl⟩
  | fault f => rw [he] at h; cases h
  | refused r => rw [he] at h; cases h

theorem facing_self (s : State) : s.facing s.host = s := rfl

@[simp] theorem facing_facing (s : State) (ms ms' : List HostMove) : (s.facing ms).facing ms' = s.facing ms' := rfl

/-- What the decoder can give (R47). -/
theorem decode_cases (c : Command) :
    (c.op = 0b00 ∧ decode c = .reserved) ∨ (c.op = 0b01 ∧ decode c = .construct c.klen c.key c.iv c.dirv) ∨
      (c.op = 0b10 ∧ decode c = .process c.len) ∨ (c.op = 0b11 ∧ decode c = .isReady) := by
  obtain ⟨op, klen, key, iv, dirv, len⟩ := c
  have : op = 0b00 ∨ op = 0b01 ∨ op = 0b10 ∨ op = 0b11 := by
    revert op; decide
  rcases this with rfl | rfl | rfl | rfl <;> simp [decode]

theorem run_zero (s : State) : run 0 s = .next s := rfl

theorem run_succ (k : Nat) (s : State) :
    run (k + 1) s = match step s with
      | .next t => run k t
      | .fault f => .fault f
      | .refused r => .refused r := by
  refine (Host.Core.run.eq_2 Sys2Proof.core s k).trans ?_
  rw [show Sys2Proof.core.step s = step s from rfl]
  cases step s <;> rfl

/-- A run that ends in a next state made a first step that did. -/
theorem run_succ_inv {k : Nat} {s t : State} (h : run (k + 1) s = .next t) :
    ∃ u, step s = .next u ∧ run k u = .next t := by
  rw [run_succ] at h
  cases hs : step s with
  | next u => rw [hs] at h; exact ⟨u, rfl, h⟩
  | fault f => rw [hs] at h; cases h
  | refused r => rw [hs] at h; cases h

end Sys2Proof.Machine
end

