-- ==== Sys2Proof/Laws/PerInstr.lean ====
section
/-! SUPPORT. What holds of every row of the opcode table as syntax: the word an encoded row carries is its row's word, and
rows of format UNIT have neither (30_encoding.md R47, R48). -/

namespace Sys2Proof.Laws.CommandWord

/-- The encoder puts the table's word of `i` on the command port, and encodes exactly the rows of format CMD. -/
def Statement (i : Instr) : Prop := (encode i).map Command.op = i.opcode ∧ (encode i).isSome = i.isCommand

theorem reserved : Statement .reserved := ⟨rfl, rfl⟩
theorem construct (klen : Nat) (key : List Byte) (iv : Vector Byte 16) (dirv : Bool) :
    Statement (.construct klen key iv dirv) := ⟨rfl, rfl⟩
theorem process (len : Nat) : Statement (.process len) := ⟨rfl, rfl⟩
theorem isReady : Statement .isReady := ⟨rfl, rfl⟩
theorem xtime (b : Byte) : Statement (.xtime b) := ⟨rfl, rfl⟩
theorem gmul (a b : Byte) : Statement (.gmul a b) := ⟨rfl, rfl⟩
theorem sbox (x : Byte) : Statement (.sbox x) := ⟨rfl, rfl⟩
theorem subBytes (v : Block) : Statement (.subBytes v) := ⟨rfl, rfl⟩
theorem shiftRows (v : Block) : Statement (.shiftRows v) := ⟨rfl, rfl⟩
theorem mixColumns (v : Block) : Statement (.mixColumns v) := ⟨rfl, rfl⟩
theorem addRoundKey (v k : Block) : Statement (.addRoundKey v k) := ⟨rfl, rfl⟩
theorem encRound (v k : Block) : Statement (.encRound v k) := ⟨rfl, rfl⟩
theorem encLast (v k : Block) : Statement (.encLast v k) := ⟨rfl, rfl⟩
theorem encryptBlock (v : Block) : Statement (.encryptBlock v) := ⟨rfl, rfl⟩
theorem subWord (w : Word) : Statement (.subWord w) := ⟨rfl, rfl⟩
theorem rotWord (w : Word) : Statement (.rotWord w) := ⟨rfl, rfl⟩
theorem keyAssist (x : Block) (rc : Byte) : Statement (.keyAssist x rc) := ⟨rfl, rfl⟩
theorem bcast (a : Block) (j : Fin 4) : Statement (.bcast a j) := ⟨rfl, rfl⟩
theorem diffuse (t : Block) : Statement (.diffuse t) := ⟨rfl, rfl⟩
theorem ksEven (e o : Block) (rc : Byte) : Statement (.ksEven e o rc) := ⟨rfl, rfl⟩
theorem ksOdd (o e : Block) : Statement (.ksOdd o e) := ⟨rfl, rfl⟩
theorem expand (k0 k1 : Block) : Statement (.expand k0 k1) := ⟨rfl, rfl⟩
theorem cbcBlock (n : Nat) : Statement (.cbcBlock n) := ⟨rfl, rfl⟩
theorem cbcRun (len : Nat) : Statement (.cbcRun len) := ⟨rfl, rfl⟩

end Sys2Proof.Laws.CommandWord
end

