-- ==== Sys2Proof/Tests/Slice0.lean ====
section
/-! SUPPORT. The model's own tests: what WellFormed refuses, the command words of 30_encoding.md R47 written out, one or two
vectors of 95_test_vectors.md for each row, and for each obligation with hypotheses a state and operands that meet them
(test_meets_<obligation>). Expected results are the spec's, named beside each test. -/

namespace Sys2Proof.Machine

open Sys2Proof

/-! ### Helpers -/

/-- The next state of an outcome. -/
def testNext : Host.Outcome State Fault Refusal → Option State
  | .next s => some s
  | .fault _ => none
  | .refused _ => none

/-- The result a unit operation leaves. -/
def testUnit (i : Instr) : Option UnitResult := (testNext (exec i State.reset)).bind State.unitOut

/-- A block result given as a byte string, first byte first (R8). -/
def testString (n : Nat) : Option UnitResult := some (.block (blockOfString n))

/-- A byte string in which each byte is its own offset, from `first` on. -/
def testBytes (first len : Nat) : List Byte := (List.range len).map fun i => BitVec.ofNat 8 (first + i)

/-- The key `00 01 .. 1f` of V13. -/
def testKey : List Byte := testBytes 0 32

/-- Sixteen zero bytes. -/
def testIv : Vector Byte 16 := Vector.replicate 16 0

/-- A configured engine between commands: the key of V14, IV zero, and a buffer of these bytes. -/
def testReady (bytes : List Byte) : State := presentBuffer bytes (installInstance 0 0 0 true State.reset)

/-- The round keys of `testReady`. -/
def testKeys (i : Fin 15) : Block := roundKey 0 0 i

/-! ### WellFormed refuses -/

theorem test_wf_construct : (Instr.construct 32 testKey testIv true).wf ⟨8, 6⟩ = true := by decide
theorem test_wf_klen_too_wide : (Instr.construct 64 (List.replicate 64 0) testIv true).wf ⟨8, 6⟩ = false := by decide
theorem test_wf_key_not_klen_bytes : (Instr.construct 32 (testBytes 0 31) testIv true).wf ⟨8, 6⟩ = false := by decide
theorem test_wf_len_too_wide :
    (Instr.process 256).wf ⟨8, 6⟩ = false ∧ (Instr.process 255).wf ⟨8, 6⟩ = true := by decide
theorem test_wf_block_out_of_range :
    (Instr.cbcBlock 15).wf ⟨8, 6⟩ = false ∧ (Instr.cbcBlock 14).wf ⟨8, 6⟩ = true := by decide
theorem test_wf_run_not_positive : (Instr.cbcRun 0).wf ⟨8, 6⟩ = false := by decide
theorem test_wf_run_not_multiple : (Instr.cbcRun 17).wf ⟨8, 6⟩ = false := by decide
theorem test_wf_run_too_wide : (Instr.cbcRun 256).wf ⟨8, 6⟩ = false := by decide
theorem test_widths : Config.Widths.ok ⟨8, 6⟩ = true ∧ Config.Widths.ok ⟨8, 5⟩ = false := by decide

/-! ### The words of R47 -/

theorem test_decode_reserved : decode { op := 0b00 } = .reserved := by decide
theorem test_decode_construct :
    decode { op := 0b01, klen := 32, key := testKey, iv := testIv, dirv := true } =
      .construct 32 testKey testIv true := by decide
theorem test_decode_process : decode { op := 0b10, len := 48 } = .process 48 := by decide
theorem test_decode_isReady : decode { op := 0b11 } = .isReady := by decide
theorem test_table_words :
    decodeTableWord 8 0b00 = some .reserved ∧ decodeTableWord 8 0b10 = some (.process 0) ∧
      decodeTableWord 8 0b11 = some .isReady ∧ decodeTableWord 8 0b01 = some (.construct 0 [] testIv false) := by decide
theorem test_fetch_word :
    testNext (step (State.reset.withFetchWord 8 0b11)) = some (respond (.ready false) State.reset) := by decide

/-! ### Text (R49) -/

theorem test_text_process : writeCommand (.process 64) = some "PROCESS len=64".toList := by decide
theorem test_text_construct :
    readCommand "CONSTRUCT key=00ff iv=000102030405060708090a0b0c0d0e0f dir=1".toList =
      some (.construct 2 [0x00, 0xff] ⟨(testBytes 0 16).toArray, by decide⟩ true) := by decide
theorem test_text_buffer : readBuffer "buf = 001122".toList = some [0x00, 0x11, 0x22] := by decide
theorem test_pseudo :
    pseudoConstructAndCheck testKey testIv false = [.construct 32 testKey testIv false, .isReady] ∧
      pseudoProcessInPlace (testBytes 0 48) = [.process 48] ∧
      pseudoExpandNew testKey testIv = [.construct 32 testKey testIv true] := by decide

/-! ### The commands (V20, V22, P1, P3) -/

theorem test_reserved : testNext (exec .reserved State.reset) = some (respond (.status 3) State.reset) := by decide
theorem test_isReady : testNext (exec .isReady State.reset) = some (respond (.ready false) State.reset) := by decide
/-- V22: 31 key bytes. -/
theorem test_construct_short_key :
    (testNext (exec (.construct 31 (testBytes 0 31) testIv true) (testReady []))).map
      (fun s => (s.READY, s.RK[0], s.CS, s.DIR)) = some (false, none, none, none) := by decide +kernel
/-- P3 step 5: `READY = 1`, `DIR = 0`, `CS = 0`, `RK` = V13. -/
theorem test_construct :
    (testNext (exec (.construct 32 testKey testIv false) State.reset)).map
      (fun s => (s.READY, s.RK[14], s.CS, s.DIR)) =
      some (true, some 0x36de686d3cc21a37e97909bfcc79fc24, some 0, some false) := by decide +kernel
/-- V20: two blocks under the zero key and IV. -/
theorem test_process :
    (testNext (exec (.process 32) (testReady (List.replicate 32 0)))).map
      (fun s => (s.buf.readBlock 0, s.buf.readBlock 16, s.CS, s.responses)) =
      some (blockOfString 0xdc95c078a2408989ad48a21492842087, blockOfString 0x08c374848c228233c2b34f332bd2e9d3,
        some (blockOfString 0x08c374848c228233c2b34f332bd2e9d3), [.status 0]) := by decide +kernel
/-- V22: `PROCESS len=17` leaves the buffer. -/
theorem test_process_17 :
    (testNext (exec (.process 17) (testReady (testBytes 0 17)))).map (fun s => (s.buf, s.responses)) =
      some (Memory.place 0 (testBytes 0 17), [.status 1]) := by decide +kernel

/-! ### The round-function engine (V1 to V8, V17, V18) -/

theorem test_xtime : testUnit (.xtime 0x80) = some (.byte 0x1b) := by decide
theorem test_xtime_chain : testUnit (.xtime 0x57) = some (.byte 0xae) := by decide
theorem test_gmul : testUnit (.gmul 0x57 0x83) = some (.byte 0xc1) := by decide
theorem test_gmul_three : testUnit (.gmul 0x80 0x03) = some (.byte 0x9b) := by decide
theorem test_sbox : testUnit (.sbox 0x53) = some (.byte 0xed) := by decide
theorem test_sbox_row : testUnit (.sbox 0x10) = some (.byte 0xca) := by decide
theorem test_subBytes : testUnit (.subBytes (blockOfString 0x000102030405060708090a0b0c0d0e0f)) =
    testString 0x637c777bf26b6fc53001672bfed7ab76 := by decide +kernel
theorem test_shiftRows : testUnit (.shiftRows (blockOfString 0x000102030405060708090a0b0c0d0e0f)) =
    testString 0x00050a0f04090e03080d02070c01060b := by decide +kernel
theorem test_mixColumns : testUnit (.mixColumns (blockOfString 0xdb135345f20a225c01010101c6c6c6c6)) =
    testString 0x8e4da1bc9fdc589d01010101c6c6c6c6 := by decide +kernel
theorem test_mixColumns_one : testUnit (.mixColumns (blockOfString 0x00010000000000000000000000000000)) =
    testString 0x03020101000000000000000000000000 := by decide +kernel
theorem test_addRoundKey :
    testUnit (.addRoundKey (blockOfString 0x5f72641557f5bc92f7be3b291db9f91a)
      (blockOfString 0x101112131415161718191a1b1c1d1e1f)) = testString 0x4f63760643e0aa85efa7213201a4e705 := by
  decide +kernel
theorem test_encRound :
    testUnit (.encRound (blockOfString 0x00102030405060708090a0b0c0d0e0f0)
      (blockOfString 0x101112131415161718191a1b1c1d1e1f)) = testString 0x4f63760643e0aa85efa7213201a4e705 := by
  decide +kernel
theorem test_encLast :
    testUnit (.encLast (blockOfString 0x627bceb9999d5aaac945ecf423f56da5)
      (blockOfString 0x24fc79ccbf0979e9371ac23c6d68de36)) = testString 0x8ea2b7ca516745bfeafc49904b496089 := by
  decide +kernel
/-- V17, under the round keys of V13. -/
theorem test_encryptBlock :
    (testNext (exec (.encryptBlock (blockOfString 0x00112233445566778899aabbccddeeff))
      (expand 0x0f0e0d0c0b0a09080706050403020100 0x1f1e1d1c1b1a19181716151413121110 State.reset))).map
      (fun s => (s.S, s.RND, s.unitOut)) =
      some (some (blockOfString 0x8ea2b7ca516745bfeafc49904b496089), some 14,
        testString 0x8ea2b7ca516745bfeafc49904b496089) := by decide +kernel

/-! ### The key-schedule expander (V9 to V16) -/

theorem test_subWord : testUnit (.subWord 0x1f1e1d1c) = some (.word 0xc072a49c) := by decide +kernel
theorem test_rotWord : testUnit (.rotWord 0xc072a49c) = some (.word 0x9cc072a4) := by decide +kernel
theorem test_keyAssist : testUnit (.keyAssist 0x0f0e0d0c0b0a09080706050403020100 0x01) =
    some (.block 0xfe76abd676abd7fef2c56f6ac56f6bf2) := by decide +kernel
theorem test_bcast : testUnit (.bcast 0xfe76abd776abd7fef2c56f6bc56f6bf2 2) =
    some (.block 0x76abd7fe76abd7fe76abd7fe76abd7fe) := by decide +kernel
theorem test_diffuse : testUnit (.diffuse 0x00000008000000040000000200000001) =
    some (.block 0x0000000f000000070000000300000001) := by decide +kernel
/-- V13: `RK[2]` from `RK[0]`, `RK[1]`. -/
theorem test_ksEven :
    testUnit (.ksEven 0x0f0e0d0c0b0a09080706050403020100 0x1f1e1d1c1b1a19181716151413121110 0x01) =
      some (.block 0x9cc072a593ce7fa998c476a19fc273a5) := by decide +kernel
/-- V13: `RK[3]` from `RK[1]`, `RK[2]`. -/
theorem test_ksOdd :
    testUnit (.ksOdd 0x1f1e1d1c1b1a19181716151413121110 0x9cc072a593ce7fa998c476a19fc273a5) =
      some (.block 0xdeba4006c1a45d1adabe4402cda85116) := by decide +kernel
/-- V15: the key of 32 bytes `ff`. -/
theorem test_expand :
    (testNext (exec (.expand (BitVec.allOnes 128) (BitVec.allOnes 128)) State.reset)).map (fun s => (s.RK[13], s.RK[14])) =
      some (some (blockOfString 0x0695ed132d7b41846ede24559cc8920f),
        some (blockOfString 0x546d424f27de1e8088402b5b4dae355e)) := by decide +kernel
/-- V14, and RCON after EXPAND (R74). -/
theorem test_expand_zero :
    (testNext (exec (.expand 0 0) State.reset)).map (fun s => (s.RK[7], s.RCON, s.KIDX)) =
      some (some (blockOfString 0x968a81c141fcf7503c717a3aeb070cab), some 0x80, some 14) := by decide +kernel

/-! ### The CBC chaining controller (V20) -/

/-- V20, the block `80 00 .. 00`, here block 1 of the buffer. -/
theorem test_cbcBlock :
    (testNext (exec (.cbcBlock 1) (testReady (List.replicate 16 0 ++ [0x80] ++ List.replicate 15 0)))).map
      (fun s => (s.buf.readBlock 0, s.buf.readBlock 16, s.CS)) =
      some (0, blockOfString 0xddc6bf790c15760d8d9aeb6f9a75fd4e, some (blockOfString 0xddc6bf790c15760d8d9aeb6f9a75fd4e)) := by
  decide +kernel
/-- V20, and the accesses of R34. -/
theorem test_cbcRun :
    (testNext (exec (.cbcRun 32) (testReady (List.replicate 32 0)))).map (fun s => (s.BLK, s.CS, s.accesses.length)) =
      some (some 2, some (blockOfString 0x08c374848c228233c2b34f332bd2e9d3), 4) := by decide +kernel

/-! ### Stops -/

/-- R14: reset leaves CS and RK without a value; the buffer byte is read first (log 19). -/
theorem test_stops :
    exec (.encryptBlock 0) State.reset = .fault (.registerHoldsNoValue (.RK 0)) ∧
      exec (.cbcBlock 0) (presentBuffer (testBytes 0 16) State.reset) = .fault (.registerHoldsNoValue .CS) ∧
      exec (.cbcBlock 0) State.reset = .fault (.bufferByteHasNoValue 0) := ⟨rfl, rfl, rfl⟩

/-! ### The hypotheses of the obligations are met -/

theorem testReady_keys (bytes : List Byte) : (testReady bytes).HoldsKeys testKeys :=
  HoldsKeys.of_roundKeys (k0 := 0) (k1 := 0) rfl

theorem testReady_blocks (b : Byte) (n : Nat) :
    (testReady (List.replicate (16 * n) b)).buf.HoldsBlocks (fun _ => ofBytes fun _ => b) n := by
  intro j hj i hi
  have : 16 * j + i < 16 * n := by omega
  simp [testReady, hi, this]

theorem testReady_inv (bytes : List Byte) : (testReady bytes).Inv where
  buf_wf := Memory.wf_place bytes
  working := ⟨rfl, rfl, rfl, rfl, rfl, rfl, rfl, rfl⟩
  configured _ := ⟨⟨0, 0, rfl⟩, by simp [testReady], by simp [testReady]⟩
  unconfigured h := by cases h

/-- The four command words, each hypothesis of the opcode map. -/
theorem test_meets_opcodeMap : ({ op := 0b00 } : Command).op = 0b00 ∧ ({ op := 0b01 } : Command).op = 0b01 ∧
    ({ op := 0b10 } : Command).op = 0b10 ∧ ({ op := 0b11 } : Command).op = 0b11 := by decide
/-- Well-formed commands at the greatest operands of LENW = 8, KLENW = 6. -/
theorem test_meets_decodeOfEncode :
    (Instr.construct 63 (testBytes 0 63) testIv true).wf ⟨8, 6⟩ = true ∧ (Instr.process 255).wf ⟨8, 6⟩ = true ∧
      (Instr.process 255).isCommand = true ∧ (Instr.construct 63 (testBytes 0 63) testIv true).isCommand = true := by decide
theorem test_meets_written : (Instr.construct 0 [] testIv true).wf ⟨8, 6⟩ = true ∧
    (Instr.process 0).wf ⟨8, 6⟩ = true ∧ (Instr.process 0).isCommand = true ∧ Instr.process 0 ≠ .reserved := by decide
theorem test_meets_unitOperations : (Instr.cbcRun 16).isCommand = false := by decide
theorem test_meets_step : encode (.process 16) = some { op := 0b10, len := 16 } := by decide
theorem test_meets_construct : testKey.length = 32 := by decide
theorem test_meets_constructFails : (0 : Nat) ≠ 32 ∧ (31 : Nat) ≠ 32 ∧ (33 : Nat) ≠ 32 := by decide
theorem test_meets_constructRefuses : (testBytes 0 31).length ≠ 32 ∧ (testBytes 0 33).length ≠ 32 := by decide
/-- Both outcomes of CONSTRUCT that answer, from a configured and from an unconfigured engine. -/
theorem test_meets_constructForgets :
    (∃ t t', exec (.construct 32 testKey testIv true) (testReady []) = .next t ∧
      exec (.construct 32 testKey testIv true) State.reset = .next t') ∧
    ∃ t t', exec (.construct 31 testKey testIv true) (testReady []) = .next t ∧
      exec (.construct 31 testKey testIv true) State.reset = .next t' := ⟨⟨_, _, rfl, rfl⟩, _, _, rfl, rfl⟩
theorem test_meets_readyTells :
    ∃ t, run 2 (State.reset.facing [.command { op := 0b10, len := 17 }, .command { op := 0b01, klen := 32, key := testKey }]) =
      .next t ∧ t.READY = true := ⟨_, rfl, rfl⟩
theorem test_meets_notReady : State.reset.READY = false ∧ (State.reset.READY = false ∧ ((17 : Nat) = 0 ∨ 17 % 16 ≠ 0)) := by
  decide
theorem test_meets_badLength : (testReady []).READY = true ∧ ((0 : Nat) = 0 ∨ 0 % 16 ≠ 0) ∧
    ((15 : Nat) = 0 ∨ 15 % 16 ≠ 0) ∧ ((17 : Nat) = 0 ∨ 17 % 16 ≠ 0) := ⟨rfl, by decide, by decide, by decide⟩
theorem test_meets_reservedWord : ({ op := 0b00, klen := 32, key := testKey, len := 16 } : Command).op = 0b00 := by decide
/-- PROCESS, CBCRUN and the accesses of both: two blocks. -/
theorem test_meets_process : let s := testReady (List.replicate (16 * 2) 0x11)
    s.READY = true ∧ s.HoldsKeys testKeys ∧ s.CS = some 0 ∧ 0 < 2 ∧ 32 / 16 = 2 ∧
      s.buf.HoldsBlocks (fun _ => ofBytes fun _ => 0x11) 2 :=
  ⟨rfl, testReady_keys _, rfl, by decide, by decide, testReady_blocks _ 2⟩
/-- The second clause on accesses: an engine not ready, and a CONSTRUCT and a PROCESS of a bad length on one that is. -/
theorem test_meets_noAccess :
    (∃ t, exec (.process 16) State.reset = .next t) ∧ Instr.isCommand (.process 16) = true ∧ State.reset.READY = false ∧
    (∃ t, exec (.process 17) (testReady []) = .next t) ∧
    (∀ len, Instr.process 17 = .process len → len = 0 ∨ len % 16 ≠ 0) ∧
    (∃ t, exec .isReady (testReady []) = .next t) ∧ ∀ len, Instr.isReady = .process len → len = 0 ∨ len % 16 ≠ 0 :=
  ⟨⟨_, rfl⟩, rfl, rfl, ⟨_, rfl⟩, fun len h => by cases h; decide, ⟨_, rfl⟩, fun _ h => by cases h⟩
theorem test_meets_chainContinues : let s := testReady []
    s.READY = true ∧ s.HoldsKeys testKeys ∧ s.CS = some 0 ∧ 0 < (testBytes 0 16).length ∧ (testBytes 0 16).length % 16 = 0 ∧
      0 < (testBytes 0 32).length ∧ (testBytes 0 32).length % 16 = 0 :=
  ⟨rfl, testReady_keys _, rfl, by decide, by decide, by decide, by decide⟩
/-- Two plaintexts of one block that differ in it. -/
theorem test_meets_changedBlock : let s := testReady (List.replicate (16 * 1) 0); let s' := testReady (List.replicate (16 * 1) 1)
    let p := fun j : Nat => ofBytes fun _ => if j = 0 then 0 else 1
    s.READY = true ∧ s'.READY = true ∧ s.HoldsKeys testKeys ∧ s'.HoldsKeys testKeys ∧ s.CS = some 0 ∧ s'.CS = some 0 ∧ 0 < 1 ∧
      s.buf.HoldsBlocks p 1 ∧ s'.buf.HoldsBlocks (fun _ => ofBytes fun _ => 1) 1 ∧
      p 0 ≠ (ofBytes fun _ => 1) ∧ ∀ j, j ≠ 0 → p j = ofBytes fun _ => 1 := by
  refine ⟨rfl, rfl, testReady_keys _, testReady_keys _, rfl, rfl, by decide, ?_, testReady_blocks 1 1, by decide +kernel, ?_⟩
  · intro j hj i hi
    obtain rfl : j = 0 := by omega
    exact testReady_blocks 0 1 0 (by omega) i hi
  · intro j hj; simp [hj]
/-- The first byte missing (no block held), and the last byte of block 1 missing. -/
theorem test_meets_unwritten :
    (let s := testReady []
     s.READY = true ∧ s.HoldsKeys testKeys ∧ s.CS = some 0 ∧ 16 % 16 = 0 ∧ s.buf.HoldsBlocks (fun _ => 0) 0 ∧
       s.buf.read 0 = none) ∧
    let s := testReady (List.replicate 31 0)
    s.HoldsKeys testKeys ∧ s.CS = some 0 ∧ 32 % 16 = 0 ∧ s.buf.HoldsBlocks (fun _ => 0) 1 ∧ 16 * 1 ≤ 31 ∧ 31 < 16 * 1 + 16 ∧ 31 < 32 ∧
      (∀ j, 16 * 1 ≤ j → j < 31 → s.buf.read j ≠ none) ∧ s.buf.read 31 = none := by
  refine ⟨⟨rfl, testReady_keys _, rfl, by decide, fun j hj => by omega, rfl⟩, testReady_keys _, rfl, by decide, ?_, by decide,
    by decide, by decide, ?_, by simp [testReady]⟩
  · intro j hj
    obtain rfl : j = 0 := by omega
    decide
  · intro j _ hj
    simp [testReady, hj]
/-- The invariant at a configured and at an unconfigured state, each with a step that answers. -/
theorem test_meets_invariant : (∃ s t, s.Inv ∧ s.READY = true ∧ step s = .next t) ∧
    ∃ s t, s.Inv ∧ s.READY = false ∧ step s = .next t := by
  refine ⟨⟨testReady [], _, testReady_inv [], rfl, rfl⟩, ⟨State.reset, _, ?_, rfl, rfl⟩⟩
  exact ⟨rfl, ⟨rfl, rfl, rfl, rfl, rfl, rfl, rfl, rfl⟩, nofun, fun _ => ⟨rfl, rfl, rfl⟩⟩
theorem test_meets_registerWithoutValue : (State.reset.RK[(0 : Fin 15)] = none ∧ State.reset.RK[(14 : Fin 15)] = none) ∧
    (presentBuffer (List.replicate 16 0) State.reset).CS = none ∧
    ∀ i < 16, (presentBuffer (List.replicate 16 0) State.reset).buf.read (16 * 0 + i) = some (byte 0 i) :=
  ⟨by decide, rfl, by decide⟩
theorem test_meets_bufferCanonical : (testReady (testBytes 0 17)).buf.wf = true ∧
    ∃ t, exec (.process 17) (testReady (testBytes 0 17)) = .next t := ⟨by decide, _, rfl⟩
/-- A CONSTRUCT with no later move, and with a refused PROCESS and a new buffer after it. -/
theorem test_meets_chainState : (keyHalves testKey).isSome = true ∧
    (∀ m ∈ [HostMove.command { op := 0b10, len := 17 }, .buffer []], m.keepsInstance = true) ∧
    ∃ t, run 3 (State.reset.facing [.command { op := 0b01, klen := 32, key := testKey, iv := testIv, dirv := true },
      .command { op := 0b10, len := 17 }, .buffer []]) = .next t := ⟨by decide, by decide, _, rfl⟩
/-- Reset within PROCESS, and within commands that are not a PROCESS that runs; test_meets_process has the other premises. -/
theorem test_meets_resetDuring : ({ op := 0b10, len := 32 } : Command).op = 0b10 ∧
    ({ op := 0b10, len := 32 } : Command).len = 16 * 2 ∧ (testReady (testBytes 0 17)).buf.wf = true ∧
    (∃ t, step ((testReady (testBytes 0 17)).facing [.resetDuring { op := 0b10, len := 17 }]) = .next t) ∧
    (∃ t, step ((testReady (testBytes 0 17)).facing [.resetDuring { op := 0b01, klen := 32, key := testKey }]) = .next t) ∧
    ∃ t, step (State.reset.facing [.resetDuring { op := 0b10, len := 16 }]) = .next t :=
  ⟨rfl, rfl, by decide, ⟨_, rfl⟩, ⟨_, rfl⟩, _, rfl⟩
theorem test_meets_onlyTheNamedMoves : State.reset.buf.wf = true ∧ ∃ t, step (State.reset.facing [.buffer [0x11]]) = .next t := ⟨rfl, _, rfl⟩
/-- One command of each word that answers. -/
theorem test_meets_oneResponse : ∀ op : BitVec 2,
    (testNext (step (State.reset.facing [.command { op := op, len := 16 }]))).isSome = true := by decide
theorem test_meets_directionFlag : (testReady []).withoutDir = State.withoutDir { testReady [] with DIR := some false } := rfl
theorem test_meets_workingRegisters :
    State.reset.withoutWorking = State.withoutWorking { State.reset with S := some 1, RCON := some 1, BLK := some 1 } := rfl
theorem test_meets_operating :
    (∃ t, exec (.construct 32 testKey testIv true) State.reset = .next t ∧ t.operating = .configured) ∧
    (∃ t, exec (.construct 31 testKey testIv true) State.reset = .next t ∧ t.operating = .unconfigured) ∧
    (∃ t, exec (.process 0) State.reset = .next t) ∧ ∃ t, exec .isReady State.reset = .next t :=
  ⟨⟨_, rfl, rfl⟩, ⟨_, rfl, rfl⟩, ⟨_, rfl⟩, _, rfl⟩
/-- R103: a CONFIGURED engine becomes UNCONFIGURED by reset, between commands and within one. -/
theorem test_meets_operating_reset : (testReady []).operating = .configured ∧
    (∃ t, step ((testReady []).facing [.reset]) = .next t ∧ t.operating = .unconfigured) ∧
    ∃ t, step ((testReady []).facing [.resetDuring { op := 0b11 }]) = .next t ∧ t.operating = .unconfigured :=
  ⟨rfl, ⟨_, rfl, rfl⟩, _, rfl, rfl⟩
theorem test_meets_bringUp : testKey.length = 32 ∧ 0 < (testBytes 0 16).length ∧ (testBytes 0 16).length % 16 = 0 := by decide
theorem test_meets_memRead : ∀ i < 16, (testReady (List.replicate 16 0)).buf.read (0 + i) ≠ none := by
  intro i hi; simp [testReady, hi]
theorem test_meets_memWrite : (testReady (List.replicate 16 0)).buf.wf = true ∧
    ∃ v t, memRead 0 (testReady (List.replicate 16 0)) = .ok (v, t) := by
  exact ⟨by decide, 0, _, memRead_ok (p := 0) (by decide)⟩
theorem test_meets_equalBytes : ∀ i < 16, byte (ofBytes fun _ => 0x5a) i = 0x5a := fun i hi => by simp [hi]
theorem test_meets_equalColumn : (0 : Nat) < 4 ∧ (3 : Nat) < 4 ∧
    ∀ k < 4, byte (ofBytes fun _ => 0x5a) (4 * 3 + k) = 0x5a := ⟨by decide, by decide, fun k hk => by
  rw [byte_ofBytes _ _ (by omega)]⟩
theorem test_meets_encryptBlock : (expand 1 2 State.reset).HoldsKeys fun i => roundKey 1 2 i := HoldsKeys.of_roundKeys rfl
theorem test_meets_encryptBlock_answers : ∃ t, exec (.encryptBlock 0) (testReady []) = .next t := by
  simp only [exec, execEncryptBlock, encryptBlock_ok (testReady_keys [])]; exact ⟨_, rfl⟩
theorem test_meets_rotWord : ∀ k < 4, wbyte 0xabababab k = 0xab := by decide
theorem test_meets_cbcBlock : let s := testReady (List.replicate (16 * 2) 0x11)
    s.HoldsKeys testKeys ∧ s.CS = some 0 ∧ ∀ i < 16, s.buf.read (16 * 1 + i) = some (byte (ofBytes fun _ => 0x11) i) :=
  ⟨testReady_keys _, rfl, fun i hi => testReady_blocks 0x11 2 1 (by decide) i hi⟩

end Sys2Proof.Machine
end

/-! ## The family 00_scope.md: the decoder on encoded rows, and the next host move -/

namespace Sys2Proof.Machine

open Sys2Proof

/-- R47, R48: only the rows of format CMD have an encoding, and each is decoded from it with all its operands. -/
theorem decode_of_encode {i : Instr} {c : Command} (h : encode i = some c) : decode c = i := by
  cases i with
  | reserved | construct klen key iv dirv | process len | isReady => cases h; rfl
  | _ => cases h

/-- Presenting a buffer while facing `rest` replaces the buffer and the list of moves alone (R39, log 20). -/
theorem presentBuffer_facing (bytes : List Byte) (s : State) (rest : List HostMove) :
    presentBuffer bytes (s.facing rest) = { s with host := rest, buf := Memory.place 0 bytes } := rfl

/-- Settles O5: the laws of the step, one for each kind of move; a presented buffer is `Memory.place 0 bytes`, and an encoded
row is decoded back. -/
theorem stepMakesTheNextHostMove : Obligations.StepMakesTheNextHostMove := by
  intro s rest
  refine ⟨fun c => step_command s c rest, fun c i h => ?_, step_idle s, fun bytes => ?_⟩
  · rw [step_command, decode_of_encode h]
  · refine ⟨presentBuffer bytes (s.facing rest), step_buffer s bytes rest, presentBuffer_facing bytes s rest, fun a => ?_⟩
    rw [presentBuffer_buf, Memory.read_place_zero]

end Sys2Proof.Machine

/-! ## The family 10_state.md: what a step can do, the invariant between commands, the chain state from one CONSTRUCT to
the next, and the working registers, which never show -/

namespace Sys2Proof.Machine

open Sys2Proof

/-! ### What a command and a step can do -/

/-- Everything a command on the port can do (R47, R83 to R85, R95): respond and no more; the two ends of CONSTRUCT and its
refusal; and a PROCESS on a configured engine, which ends as its block loop does. -/
theorem exec_decode_cases (c : Command) (s : State) :
    (c.op ≠ 0b01 ∧ ∃ r, exec (decode c) s = .next (respond r s)) ∨
    (c.op = 0b01 ∧ c.klen ≠ 32 ∧ exec (decode c) s = .next (raise .constructionFailure (loseInstance s))) ∨
    (c.op = 0b01 ∧ ∃ k0 k1, keyHalves c.key = some (k0, k1) ∧
      exec (decode c) s = .next (respond .completion (installInstance k0 k1 (ivValue c.iv) c.dirv s))) ∨
    (c.op = 0b01 ∧ exec (decode c) s = .refused .keyIsNotKlenBytes) ∨
    (c.op = 0b10 ∧ s.READY = true ∧
      ((∃ u, cbcRun c.len s = .ok u ∧ exec (decode c) s = .next (respond (.status 0) (dropBlockScratch u))) ∨
        ∃ f, cbcRun c.len s = .error f ∧ exec (decode c) s = .fault f)) := by
  rcases decode_cases c with ⟨hop, hd⟩ | ⟨hop, hd⟩ | ⟨hop, hd⟩ | ⟨hop, hd⟩ <;> rw [hd]
  · exact .inl ⟨by simp [hop], _, rfl⟩
  · rcases execConstruct_cases c.klen c.key c.iv c.dirv s with ⟨hl, he⟩ | ⟨k0, k1, -, hk, he⟩ | ⟨-, -, he⟩
    · exact .inr (.inl ⟨hop, hl, he⟩)
    · exact .inr (.inr (.inl ⟨hop, k0, k1, hk, he⟩))
    · exact .inr (.inr (.inr (.inl ⟨hop, he⟩)))
  · rcases execProcess_cases c.len s with ⟨-, he⟩ | ⟨-, -, he⟩ | ⟨hr, -, -, h⟩
    · exact .inl ⟨by simp [hop], _, he⟩
    · exact .inl ⟨by simp [hop], _, he⟩
    · exact .inr (.inr (.inr (.inr ⟨hop, hr, h⟩)))
  · exact .inl ⟨by simp [hop], _, rfl⟩

/-- What a command that answers did. -/
theorem exec_decode_next {c : Command} {s t : State} (h : exec (decode c) s = .next t) :
    (c.op ≠ 0b01 ∧ ∃ r, t = respond r s) ∨
    (c.op = 0b01 ∧ c.klen ≠ 32 ∧ t = raise .constructionFailure (loseInstance s)) ∨
    (c.op = 0b01 ∧ ∃ k0 k1, keyHalves c.key = some (k0, k1) ∧
      t = respond .completion (installInstance k0 k1 (ivValue c.iv) c.dirv s)) ∨
    (c.op = 0b10 ∧ s.READY = true ∧ ∃ u, cbcRun c.len s = .ok u ∧ t = respond (.status 0) (dropBlockScratch u)) := by
  rcases exec_decode_cases c s with ⟨hop, r, he⟩ | ⟨hop, hl, he⟩ | ⟨hop, k0, k1, hk, he⟩ | ⟨-, he⟩ |
    ⟨hop, hr, ⟨u, hu, he⟩ | ⟨f, -, he⟩⟩ <;> rw [he] at h <;> cases h
  · exact .inl ⟨hop, r, rfl⟩
  · exact .inr (.inl ⟨hop, hl, rfl⟩)
  · exact .inr (.inr (.inl ⟨hop, k0, k1, hk, rfl⟩))
  · exact .inr (.inr (.inr ⟨hop, hr, u, hu, rfl⟩))

/-- The one command that stops with a fault is a PROCESS on a configured engine, as its block loop does. -/
theorem exec_decode_fault {c : Command} {s : State} {f : Fault} (h : exec (decode c) s = .fault f) :
    s.READY = true ∧ cbcRun c.len s = .error f := by
  rcases exec_decode_cases c s with ⟨-, r, he⟩ | ⟨-, -, he⟩ | ⟨-, k0, k1, -, he⟩ | ⟨-, he⟩ |
    ⟨-, hr, ⟨u, -, he⟩ | ⟨f', hf, he⟩⟩ <;> rw [he] at h <;> cases h
  exact ⟨hr, hf⟩

/-- What a step that answers did, for each next move of the host. -/
theorem step_next {s t : State} (h : step s = .next t) :
    (s.host = [] ∧ t = s) ∨
    (∃ c rest, s.host = .command c :: rest ∧ exec (decode c) (s.facing rest) = .next t) ∨
    (∃ bytes rest, s.host = .buffer bytes :: rest ∧ t = presentBuffer bytes (s.facing rest)) ∨
    (∃ rest, s.host = .reset :: rest ∧ t = resetEngine (s.facing rest)) ∨
    (∃ c rest u, s.host = .resetDuring c :: rest ∧ exec (decode c) (s.facing rest) = .next u ∧
      t = cutByReset (s.facing rest) u) := by
  rw [← facing_self s] at h
  cases hm : s.host with
  | nil => rw [facing_self, ← facing_self s, hm, step_idle] at h; cases h; exact .inl ⟨rfl, by rw [← hm, facing_self]⟩
  | cons m rest =>
    rw [hm] at h
    cases m with
    | command c => exact .inr (.inl ⟨c, rest, rfl, h⟩)
    | buffer bytes => cases h; exact .inr (.inr (.inl ⟨bytes, rest, rfl, rfl⟩))
    | reset => cases h; exact .inr (.inr (.inr (.inl ⟨rest, rfl, rfl⟩)))
    | resetDuring c =>
      obtain ⟨u, hu, rfl⟩ := step_resetDuring_inv h
      exact .inr (.inr (.inr (.inr ⟨c, rest, u, rfl, hu, rfl⟩)))

/-- A step stops with a fault only as the command in it does. -/
theorem step_fault {s : State} {f : Fault} (h : step s = .fault f) :
    ∃ c rest, exec (decode c) (s.facing rest) = .fault f := by
  rw [← facing_self s] at h
  cases hm : s.host with
  | nil => rw [hm] at h; cases h
  | cons m rest =>
    rw [hm] at h
    cases m with
    | command c => exact ⟨c, rest, h⟩
    | buffer bytes | reset => cases h
    | resetDuring c =>
      refine ⟨c, rest, ?_⟩
      rw [step_resetDuring] at h
      cases he : exec (decode c) (s.facing rest) with
      | next t => rw [he] at h; cases h
      | fault f' => rw [he] at h; cases h; rfl
      | refused r => rw [he] at h; cases h

/-! ### What the block loop keeps -/

/-- The block loop writes S, RND, CS, BLK, the buffer and the access history alone (R75, R76). -/
theorem cbcRun_frame {len : Nat} {s u : State} (h : cbcRun len s = .ok u) :
    u = { s with S := u.S, RND := u.RND, CS := u.CS, BLK := u.BLK, buf := u.buf, accesses := u.accesses } := by
  refine cbcRun_induction
    (P := fun t => t = { s with S := t.S, RND := t.RND, CS := t.CS, BLK := t.BLK, buf := t.buf, accesses := t.accesses })
    (fun n t t' ht hb => ?_) rfl h
  obtain ⟨ks, c, p, -, -, -, rfl⟩ := cbcBlock_inv hb
  generalize cipher ks (p ^^^ c) = y
  rw [ht]; rfl

/-- log 5: the block loop keeps the buffer's canonical form. -/
theorem cbcRun_buf_wf {len : Nat} {s u : State} (hs : s.buf.wf = true) (h : cbcRun len s = .ok u) : u.buf.wf = true := by
  refine cbcRun_induction (P := fun t => t.buf.wf = true) (fun n t t' ht hb => ?_) hs h
  obtain ⟨ks, c, p, -, -, -, rfl⟩ := cbcBlock_inv hb
  rw [setBLK_buf, afterBlock_buf]
  exact Memory.wf_writeBlock _ _ ht

/-- `CS` holds the block of the most recent write access since the access history was `old`, or `iv` if there is none
(R28 b, c). -/
def State.ChainSince (old : List Access) (iv : Block) (s : State) : Prop :=
  ∃ new, s.accesses = new ++ old ∧ s.CS = some (lastWritten iv new)

/-- A block step makes the block it wrote the chain value (R75). -/
theorem State.ChainSince.afterBlock {old : List Access} {iv : Block} {s : State} (h : s.ChainSince old iv) (n : Nat)
    (y : Block) : (afterBlock n y s).ChainSince old iv := by
  obtain ⟨new, ha, -⟩ := h
  exact ⟨.write (16 * n) y :: .read (16 * n) :: new, by simp [ha], by simp [lastWritten]⟩

theorem cbcRun_chainSince {old : List Access} {iv : Block} {len : Nat} {s u : State} (hs : s.ChainSince old iv)
    (h : cbcRun len s = .ok u) : u.ChainSince old iv := by
  refine cbcRun_induction (P := State.ChainSince old iv) (fun n t t' ht hb => ?_) hs h
  obtain ⟨ks, c, p, -, -, -, rfl⟩ := cbcBlock_inv hb
  exact ht.afterBlock n _

/-- The block loop never takes the chain value away. -/
theorem cbcRun_CS {len : Nat} {s u : State} (hs : s.CS ≠ none) (h : cbcRun len s = .ok u) : u.CS ≠ none := by
  obtain ⟨c, hc⟩ := Option.ne_none_iff_exists'.1 hs
  obtain ⟨new, -, hu⟩ := cbcRun_chainSince (old := s.accesses) (iv := c) ⟨[], rfl, hc⟩ h
  simp [hu]

/-! ### Reset and the invariant between commands -/

/-- Settles O6: the fields of `State.reset`, which fills `RK` with absent values. -/
theorem resetLeavesOnlyReadyWithAValue : Obligations.ResetLeavesOnlyReadyWithAValue :=
  ⟨rfl, fun _ => Vector.getElem_replicate _, rfl, rfl, ⟨rfl, rfl, rfl, rfl, rfl, rfl, rfl, rfl⟩⟩

theorem State.Inv.of_resetEngine {s : State} (h : s.buf.wf = true) : (resetEngine s).Inv where
  buf_wf := h
  working := ⟨rfl, rfl, rfl, rfl, rfl, rfl, rfl, rfl⟩
  configured hr := by cases hr
  unconfigured _ := ⟨rfl, rfl, rfl⟩

/-- Settles O26: `State.reset` is what reset leaves, with an empty buffer. -/
theorem resetMeetsTheInvariant : Obligations.ResetMeetsTheInvariant := fun ms =>
  State.Inv.of_resetEngine (s := State.reset.facing ms) rfl

section
variable {s : State} (h : s.Inv)
include h

theorem State.Inv.facing (ms : List HostMove) : (s.facing ms).Inv := ⟨h.buf_wf, h.working, h.configured, h.unconfigured⟩

theorem State.Inv.respond (r : Response) : (respond r s).Inv := ⟨h.buf_wf, h.working, h.configured, h.unconfigured⟩

theorem State.Inv.presentBuffer (bytes : List Byte) : (presentBuffer bytes s).Inv :=
  ⟨Memory.wf_place bytes, h.working, h.configured, h.unconfigured⟩

/-- R83: a failing CONSTRUCT leaves an unconfigured engine. -/
theorem State.Inv.loseInstance : (loseInstance s).Inv where
  buf_wf := h.buf_wf
  working := h.working
  configured hr := by cases hr
  unconfigured _ := ⟨rfl, rfl, rfl⟩

/-- R83, R21 (c): a CONSTRUCT that succeeds leaves a configured engine with its scratch registers empty. -/
theorem State.Inv.installInstance (k0 k1 ivv : Block) (dirv : Bool) : (installInstance k0 k1 ivv dirv s).Inv where
  buf_wf := h.buf_wf
  working := by
    obtain ⟨hS, -, -, -, -, hBLK, hRND, -⟩ := h.working
    exact ⟨hS, rfl, rfl, rfl, rfl, hBLK, hRND, rfl⟩
  configured _ := ⟨⟨k0, k1, rfl⟩, by simp, by simp⟩
  unconfigured hr := by cases hr

/-- R19, R22, R28: a PROCESS that runs keeps the invariant; the registers it used are emptied. -/
theorem State.Inv.dropBlockScratch_of_cbcRun {len : Nat} {u : State} (hr : s.READY = true) (hu : cbcRun len s = .ok u) :
    (dropBlockScratch u).Inv := by
  have hf := cbcRun_frame hu
  have hwf := cbcRun_buf_wf h.buf_wf hu
  obtain ⟨hk, hc, hd⟩ := h.configured hr
  have hcs := cbcRun_CS hc hu
  obtain ⟨-, hT1, hT2, hT3, hRCON, -, -, hKIDX⟩ := h.working
  refine ⟨hwf, ?_, fun _ => ⟨?_, hcs, ?_⟩, fun hn => ?_⟩
  · rw [hf]; exact ⟨rfl, hT1, hT2, hT3, hRCON, rfl, rfl, hKIDX⟩
  · rw [hf]; exact hk
  · rw [hf]; exact hd
  · rw [hf] at hn; exact absurd (hr.symm.trans hn) (by decide)

theorem State.Inv.exec_decode {c : Command} {t : State} (he : exec (decode c) s = .next t) : t.Inv := by
  rcases exec_decode_next he with ⟨-, r, rfl⟩ | ⟨-, -, rfl⟩ | ⟨-, k0, k1, -, rfl⟩ | ⟨-, hr, u, hu, rfl⟩
  · exact h.respond r
  · exact h.loseInstance.respond _
  · exact (h.installInstance k0 k1 _ _).respond _
  · exact (h.dropBlockScratch_of_cbcRun hr hu).respond _

end

/-- Settles O25: for each move of the host, the operation it stands for keeps the invariant; reset needs the canonical
buffer alone, and a mix of two buffers is as canonical as the old one. -/
theorem stepKeepsTheInvariant : Obligations.StepKeepsTheInvariant := by
  intro s t h hst
  rcases step_next hst with ⟨-, rfl⟩ | ⟨c, rest, -, he⟩ | ⟨bytes, rest, -, rfl⟩ | ⟨rest, -, rfl⟩ |
    ⟨c, rest, u, -, -, rfl⟩
  · exact h
  · exact (h.facing rest).exec_decode he
  · exact (h.facing rest).presentBuffer bytes
  · exact .of_resetEngine h.buf_wf
  · exact .of_resetEngine (Memory.wf_mix _ _ h.buf_wf)

/-! ### Registers that hold no value -/

/-- R28 (a), R14: on a configured engine that meets the invariant, a block loop stops on a buffer byte only. -/
theorem State.Inv.cbcRun_error {s : State} (h : s.Inv) (hr : s.READY = true) {len : Nat} {f : Fault}
    (hf : cbcRun len s = .error f) : ∃ a, f = .bufferByteHasNoValue a := by
  obtain ⟨⟨k0, k1, hRK⟩, hCS, -⟩ := h.configured hr
  have hk := HoldsKeys.of_roundKeys hRK
  rcases cbcLoop_fault hf with ⟨a, rfl⟩ | ⟨i, hi, -⟩ | ⟨hc, -⟩
  · exact ⟨a, rfl⟩
  · exact absurd ((hk i).symm.trans hi) (by simp)
  · exact absurd hc hCS

/-- Settles O27: a step stops with a fault only as a PROCESS on a configured engine does, and there every register it reads
holds a value. -/
theorem noStepReadsARegisterWithoutValue : Obligations.NoStepReadsARegisterWithoutValue := by
  intro s h r hst
  obtain ⟨c, rest, he⟩ := step_fault hst
  obtain ⟨hr, hf⟩ := exec_decode_fault he
  obtain ⟨a, ha⟩ := (h.facing rest).cbcRun_error hr hf
  cases ha

/-- R75, R14: with the block written and CS without a value, CBCBLOCK stops on CS. -/
theorem cbcBlock_fault_CS {s : State} {p : Block} {n : Nat} (hp : ∀ i < 16, s.buf.read (16 * n + i) = some (byte p i))
    (hc : s.CS = none) : cbcBlock n s = .error (.registerHoldsNoValue .CS) := by
  simp only [cbcBlock, blockOffset_eq, memRead_ok hp, bind, Except.bind]
  rw [readCS_fault (by simpa using hc)]

/-- Settles O28: ENCRYPTBLOCK names the first round key without a value, which lies at or before any other such, and
CBCBLOCK reads CS ahead of the round keys. -/
theorem readOfARegisterWithoutValueFaults : Obligations.ReadOfARegisterWithoutValueFaults := by
  refine ⟨fun s v i hi => ?_, fun s p n hp hc => ?_⟩
  · rcases encryptBlock_cases v s with ⟨ks, hk, -⟩ | ⟨j, hj, hlt, he⟩
    · exact absurd ((hk i).symm.trans hi) (by simp)
    · exact ⟨j, not_lt.1 fun h => hlt i h hi, hj, by simp [exec, execEncryptBlock, he, finish, bind, Except.bind]⟩
  · rw [exec, execCbcBlock, cbcBlock_fault_CS hp hc]; rfl

/-! ### What each move may write -/

section
variable {c : Command} {s t : State} (h : exec (decode c) s = .next t)
include h

/-- R15, R17, R18: only CONSTRUCT writes RK, READY and DIR. -/
theorem exec_decode_RK_READY_DIR : c.op = 0b01 ∨ (t.RK = s.RK ∧ t.READY = s.READY ∧ t.DIR = s.DIR) := by
  rcases exec_decode_next h with ⟨-, r, rfl⟩ | ⟨hop, -⟩ | ⟨hop, -⟩ | ⟨-, -, u, hu, rfl⟩
  · exact .inr ⟨rfl, rfl, rfl⟩
  · exact .inl hop
  · exact .inl hop
  · rw [cbcRun_frame hu]; exact .inr ⟨rfl, rfl, rfl⟩

/-- R16: only CONSTRUCT and PROCESS write CS. -/
theorem exec_decode_CS : c.op = 0b01 ∨ c.op = 0b10 ∨ t.CS = s.CS := by
  rcases exec_decode_next h with ⟨-, r, rfl⟩ | ⟨hop, -⟩ | ⟨hop, -⟩ | ⟨hop, -⟩
  · exact .inr (.inr rfl)
  · exact .inl hop
  · exact .inl hop
  · exact .inr (.inl hop)

/-- R29: of the commands only PROCESS writes the buffer. -/
theorem exec_decode_buf : c.op = 0b10 ∨ t.buf = s.buf := by
  rcases exec_decode_next h with ⟨-, r, rfl⟩ | ⟨-, -, rfl⟩ | ⟨-, k0, k1, -, rfl⟩ | ⟨hop, -⟩
  · exact .inr rfl
  · exact .inr rfl
  · exact .inr rfl
  · exact .inl hop

/-- No command touches the host's moves still to come (log 3). -/
theorem exec_decode_host : t.host = s.host := by
  rcases exec_decode_next h with ⟨-, r, rfl⟩ | ⟨-, -, rfl⟩ | ⟨-, k0, k1, -, rfl⟩ | ⟨-, -, u, hu, rfl⟩
  · rfl
  · rfl
  · rfl
  · rw [cbcRun_frame hu]; rfl

end

/-- Settles O31: what the command of a move may write, and what reset writes beside; a PROCESS apart, a command cut short
leaves the buffer as it was, since mixing a canonical buffer with itself changes nothing. -/
theorem onlyTheNamedMovesWriteEachRegister : Obligations.OnlyTheNamedMovesWriteEachRegister := by
  intro s t hwf hst moved construct process
  rcases step_next hst with ⟨-, rfl⟩ | ⟨c, rest, hm, he⟩ | ⟨bytes, rest, hm, rfl⟩ | ⟨rest, hm, rfl⟩ |
    ⟨c, rest, u, hm, he, rfl⟩
  · exact ⟨.inl ⟨rfl, rfl, rfl⟩, .inl rfl, .inl rfl⟩
  · have construct_of (hop : c.op = 0b01) : moved construct := ⟨_, rest, hm, c, rfl, hop⟩
    have process_of (hop : c.op = 0b10) : moved process := ⟨_, rest, hm, c, rfl, hop⟩
    refine ⟨?_, ?_, ?_⟩
    · rcases exec_decode_RK_READY_DIR he with hop | hsame
      · exact .inr (.inl (construct_of hop))
      · exact .inl hsame
    · rcases exec_decode_CS he with hop | hop | hsame
      · exact .inr (.inl (construct_of hop))
      · exact .inr (.inr (.inl (process_of hop)))
      · exact .inl hsame
    · rcases exec_decode_buf he with hop | hsame
      · exact .inr (.inl (process_of hop))
      · exact .inl hsame
  · exact ⟨.inl ⟨rfl, rfl, rfl⟩, .inl rfl, .inr (.inr (.inl ⟨_, rest, hm, bytes, rfl⟩))⟩
  · have hreset : moved (·.isReset) := ⟨_, rest, hm, rfl⟩
    exact ⟨.inr (.inr hreset), .inr (.inr (.inr hreset)), .inl rfl⟩
  · have hreset : moved (·.isReset) := ⟨_, rest, hm, rfl⟩
    refine ⟨.inr (.inr hreset), .inr (.inr (.inr hreset)), ?_⟩
    rcases exec_decode_buf he with hop | hsame
    · exact .inr (.inr (.inr ⟨_, rest, hm, c, rfl, hop⟩))
    · refine .inl ?_
      rw [cutByReset, resetEngine_buf, hsame]
      exact Memory.mix_self _ _ hwf

/-! ### Runs over the host's moves, and the chain state from one CONSTRUCT to the next -/

/-- A step takes the host's next move off the list and touches no other (log 3). -/
theorem step_host {s t : State} {m : HostMove} {rest : List HostMove} (hm : s.host = m :: rest) (h : step s = .next t) :
    t.host = rest := by
  rcases step_next h with ⟨hm', -⟩ | ⟨c, rest', hm', he⟩ | ⟨bytes, rest', hm', rfl⟩ | ⟨rest', hm', rfl⟩ |
    ⟨c, rest', u, hm', he, rfl⟩ <;> cases hm.symm.trans hm'
  · exact exec_decode_host he
  · rfl
  · rfl
  · rfl

/-- Packaged induction: what every step on a move of the kind `Q` keeps, a run over moves of that kind keeps. -/
theorem run_host_induction {P : State → Prop} {Q : HostMove → Prop}
    (hstep : ∀ s t m rest, Q m → P s → s.host = m :: rest → step s = .next t → P t) {ms : List HostMove} {s t : State}
    (hms : s.host = ms) (hQ : ∀ m ∈ ms, Q m) (hs : P s) (h : run ms.length s = .next t) : P t := by
  induction ms generalizing s with
  | nil => cases h; exact hs
  | cons m rest ih =>
    obtain ⟨u, hu, hrun⟩ := run_succ_inv h
    rw [List.forall_mem_cons] at hQ
    exact ih (step_host hms hu) hQ.2 (hstep s u m rest hQ.1 hs hms hu) hrun

/-- The engine is configured by a CONSTRUCT with the key halves `k0`, `k1`, the IV value `iv` and the direction operand
`dirv`, made when the access history was `old` (R28 a, b, c). -/
structure State.ConfiguredBy (k0 k1 iv : Block) (dirv : Bool) (old : List Access) (s : State) : Prop where
  ready : s.READY = true
  keys : s.RK = roundKeys k0 k1
  direction : s.DIR = some dirv
  chain : s.ChainSince old iv

section
variable {k0 k1 iv : Block} {dirv : Bool} {old : List Access} {s t : State}

/-- R28: every command but CONSTRUCT keeps what CONSTRUCT set up. -/
theorem State.ConfiguredBy.exec_decode {c : Command} (hs : s.ConfiguredBy k0 k1 iv dirv old) (hop : c.op ≠ 0b01)
    (he : exec (decode c) s = .next t) : t.ConfiguredBy k0 k1 iv dirv old := by
  obtain ⟨hr, hk, hd, hc⟩ := hs
  obtain ⟨hRK, hREADY, hDIR⟩ := (exec_decode_RK_READY_DIR he).resolve_left hop
  refine ⟨hREADY.trans hr, hRK.trans hk, hDIR.trans hd, ?_⟩
  rcases exec_decode_next he with ⟨-, r, rfl⟩ | ⟨hop', -⟩ | ⟨hop', -⟩ | ⟨-, -, u, hu, rfl⟩
  · exact hc
  · exact absurd hop' hop
  · exact absurd hop' hop
  · have hchain : u.ChainSince old iv := cbcRun_chainSince hc hu
    exact hchain

/-- R104: so does every step on a move that is neither CONSTRUCT nor reset. -/
theorem State.ConfiguredBy.step {m : HostMove} {rest : List HostMove} (hs : s.ConfiguredBy k0 k1 iv dirv old)
    (hm : s.host = m :: rest) (hkeeps : m.keepsInstance = true) (h : step s = .next t) :
    t.ConfiguredBy k0 k1 iv dirv old := by
  obtain ⟨hr, hk, hd, hc⟩ := hs
  rcases step_next h with ⟨hm', -⟩ | ⟨c, rest', hm', he⟩ | ⟨bytes, rest', hm', rfl⟩ | ⟨rest', hm', rfl⟩ |
    ⟨c, rest', u, hm', he, rfl⟩ <;> cases hm.symm.trans hm'
  · have hs' : (s.facing rest).ConfiguredBy k0 k1 iv dirv old := ⟨hr, hk, hd, hc⟩
    exact hs'.exec_decode (of_decide_eq_true hkeeps) he
  · exact ⟨hr, hk, hd, hc⟩
  · cases hkeeps
  · cases hkeeps

end

/-- Settles O30: the CONSTRUCT sets the registers up, with the IV as the chain value, and every later move keeps them. -/
theorem chainStateIsTheLastCiphertextBlockOrTheIv : Obligations.ChainStateIsTheLastCiphertextBlockOrTheIv := by
  intro s t key iv dirv k0 k1 ms hk hms hrun
  obtain ⟨u, hu, hrun⟩ := run_succ_inv hrun
  have hhost : u.host = ms := step_host rfl hu
  have hstart : u.ConfiguredBy k0 k1 (ivValue iv) dirv s.accesses := by
    rw [step_command] at hu
    rcases exec_decode_next hu with ⟨hop, -⟩ | ⟨-, hl, -⟩ | ⟨-, k0', k1', hk', rfl⟩ | ⟨hop, -⟩
    · exact absurd rfl hop
    · exact absurd rfl hl
    · cases hk.symm.trans hk'
      exact ⟨rfl, rfl, rfl, [], rfl, rfl⟩
    · exact absurd hop (by simp)
  obtain ⟨hr, hRK, hd, hc⟩ := run_host_induction (P := State.ConfiguredBy k0 k1 (ivValue iv) dirv s.accesses)
    (fun s t m rest hkeeps hs hm h => hs.step hm hkeeps h) hhost hms hstart hrun
  exact ⟨hr, hRK, hd, hc⟩

/-! ### Runs seen through a view, and the working registers -/

/-- Outcomes that look alike are next states that look alike, or the same stop. -/
theorem seen_eq_cases {α : Type} {view : State → α} {o o' : Host.Outcome State Fault Refusal}
    (h : seen view o = seen view o') :
    (∃ t t', o = .next t ∧ o' = .next t' ∧ view t = view t') ∨ (∃ f, o = .fault f ∧ o' = .fault f) ∨
      ∃ r, o = .refused r ∧ o' = .refused r := by
  cases o with
  | next t =>
    cases o' with
    | next t' => exact .inl ⟨t, t', rfl, rfl, by simpa [seen] using h⟩
    | fault f | refused r => cases h
  | fault f =>
    cases o' with
    | fault f' => cases h; exact .inr (.inl ⟨f, rfl, rfl⟩)
    | next t | refused r => cases h
  | refused r =>
    cases o' with
    | refused r' => cases h; exact .inr (.inr ⟨r, rfl, rfl⟩)
    | next t | fault f => cases h

/-- Packaged induction: if one step from states that look alike ends alike, so does every run. -/
theorem run_seen {α : Type} {view : State → α}
    (hstep : ∀ s s', view s = view s' → seen view (step s) = seen view (step s')) (k : Nat) {s s' : State}
    (h : view s = view s') : seen view (run k s) = seen view (run k s') := by
  induction k generalizing s s' with
  | zero => exact congrArg Host.Outcome.next h
  | succ k ih =>
    rw [run_succ, run_succ]
    rcases seen_eq_cases (hstep s s' h) with ⟨t, t', ht, ht', hv⟩ | ⟨f, ht, ht'⟩ | ⟨r, ht, ht'⟩ <;> rw [ht, ht']
    exact ih hv

/-- An update that reads no working register gives states alike but for those from states alike but for those. -/
theorem withoutWorking_congr {f : State → State} (hf : ∀ s, (f s.withoutWorking).withoutWorking = (f s).withoutWorking)
    {s s' : State} (h : s.withoutWorking = s'.withoutWorking) : (f s).withoutWorking = (f s').withoutWorking := by
  rw [← hf s, h, hf s']

/-- R30: sixteen bytes that all hold a value are those of a block. -/
theorem Memory.exists_block_of_firstMissing {m : Memory} {off : Nat} (h : m.firstMissing off 16 = none) :
    ∃ p, ∀ i < 16, m.read (off + i) = some (byte p i) := by
  refine ⟨m.readBlock off, fun i hi => ?_⟩
  obtain ⟨b, hb⟩ := Option.ne_none_iff_exists'.1 (Memory.firstMissing_eq_none.1 h i hi)
  simp [Memory.readBlock, hi, hb]

/-- U6: on a byte without a value CBCBLOCK stops, whatever the registers hold. -/
theorem cbcBlock_fault_byte {s : State} {n a : Nat} (h : s.buf.firstMissing (16 * n) 16 = some a) :
    cbcBlock n s = .error (.bufferByteHasNoValue a) := by
  simp [cbcBlock, memRead, h, bind, Except.bind]

/-- R59, R14: with the block written and CS held, CBCBLOCK stops on the first round key without a value. -/
theorem cbcBlock_fault_RK {s : State} {c p : Block} {n : Nat} {i : Fin 15}
    (hp : ∀ i < 16, s.buf.read (16 * n + i) = some (byte p i)) (hc : s.CS = some c) (hi : s.RK[i] = none)
    (hlt : ∀ j < i, s.RK[j] ≠ none) : cbcBlock n s = .error (.registerHoldsNoValue (.RK i)) := by
  simp only [cbcBlock, blockOffset_eq, memRead_ok hp, bind, Except.bind]
  rw [readCS_ok (c := c) (by simpa using hc)]
  simp only []
  rw [encryptBlock_fault (i := i) (by exact hi) (by exact hlt)]

/-- R75, R21 (a): a block step reads RK, CS and the buffer alone. -/
theorem cbcBlock_congr {s s' : State} (hk : s.RK = s'.RK) (hc : s.CS = s'.CS) (hb : s.buf = s'.buf) (n : Nat) :
    (∃ y, cbcBlock n s = .ok (afterBlock n y s) ∧ cbcBlock n s' = .ok (afterBlock n y s')) ∨
      ∃ f, cbcBlock n s = .error f ∧ cbcBlock n s' = .error f := by
  cases hm : s.buf.firstMissing (16 * n) 16 with
  | some a => exact .inr ⟨_, cbcBlock_fault_byte hm, cbcBlock_fault_byte (hb ▸ hm)⟩
  | none =>
    obtain ⟨p, hp⟩ := Memory.exists_block_of_firstMissing hm
    have hp' : ∀ i < 16, s'.buf.read (16 * n + i) = some (byte p i) := hb ▸ hp
    cases hcs : s.CS with
    | none => exact .inr ⟨_, cbcBlock_fault_CS hp hcs, cbcBlock_fault_CS hp' (hc ▸ hcs)⟩
    | some c =>
      have hcs' : s'.CS = some c := hc ▸ hcs
      rcases encryptBlock_cases (p ^^^ c) s with ⟨ks, hks, -⟩ | ⟨i, hi, hlt, -⟩
      · have hks' : s'.HoldsKeys ks := by rwa [State.HoldsKeys, ← hk]
        exact .inl ⟨_, cbcBlock_ok hks hcs hp, cbcBlock_ok hks' hcs' hp'⟩
      · exact .inr ⟨_, cbcBlock_fault_RK hp hcs hi hlt, cbcBlock_fault_RK hp' hcs' (hk ▸ hi) (hk ▸ hlt)⟩

section
variable {s s' : State}

/-- The registers, the buffer and the moves that a step reads are the same in states alike but for the working registers. -/
theorem eq_of_withoutWorking_eq (h : s.withoutWorking = s'.withoutWorking) :
    s.RK = s'.RK ∧ s.CS = s'.CS ∧ s.READY = s'.READY ∧ s.buf = s'.buf ∧ s.host = s'.host :=
  ⟨(congrArg State.RK h :), (congrArg State.CS h :), (congrArg State.READY h :), (congrArg State.buf h :),
    (congrArg State.host h :)⟩

/-- R21 (a), R22: the block loop writes the working registers before it reads them. -/
theorem cbcLoop_withoutWorking (todo blk : Nat) (h : s.withoutWorking = s'.withoutWorking) :
    (∃ t t', cbcLoop todo blk s = .ok t ∧ cbcLoop todo blk s' = .ok t' ∧ t.withoutWorking = t'.withoutWorking) ∨
      ∃ f, cbcLoop todo blk s = .error f ∧ cbcLoop todo blk s' = .error f := by
  induction todo generalizing blk s s' with
  | zero => exact .inl ⟨s, s', rfl, rfl, h⟩
  | succ todo ih =>
    obtain ⟨hk, hc, -, hbuf, -⟩ := eq_of_withoutWorking_eq h
    rcases cbcBlock_congr hk hc hbuf blk with ⟨y, hb, hb'⟩ | ⟨f, hb, hb'⟩ <;>
      simp only [cbcLoop, bind, Except.bind, hb, hb']
    · exact ih _ (withoutWorking_congr (f := fun u => setBLK (blk + 1) (afterBlock blk y u)) (fun _ => rfl) h)
    · exact .inr ⟨f, rfl, rfl⟩

theorem seen_execConstruct_withoutWorking (klen : Nat) (key : List Byte) (iv : Vector Byte 16) (dirv : Bool)
    (h : s.withoutWorking = s'.withoutWorking) :
    seen State.withoutWorking (execConstruct klen key iv dirv s) =
      seen State.withoutWorking (execConstruct klen key iv dirv s') := by
  unfold execConstruct
  split
  · cases keyHalves key with
    | none => rfl
    | some k =>
      exact congrArg Host.Outcome.next (withoutWorking_congr
        (f := fun u => respond .completion (installInstance k.1 k.2 (ivValue iv) dirv u)) (fun _ => rfl) h)
  · exact congrArg Host.Outcome.next
      (withoutWorking_congr (f := fun u => raise .constructionFailure (loseInstance u)) (fun _ => rfl) h)

theorem seen_execProcess_withoutWorking (len : Nat) (h : s.withoutWorking = s'.withoutWorking) :
    seen State.withoutWorking (execProcess len s) = seen State.withoutWorking (execProcess len s') := by
  obtain ⟨-, -, hr, -, -⟩ := eq_of_withoutWorking_eq h
  unfold execProcess
  rw [hr]
  split
  · exact congrArg Host.Outcome.next (withoutWorking_congr (f := raise .notReady) (fun _ => rfl) h)
  split
  · exact congrArg Host.Outcome.next (withoutWorking_congr (f := raise .invalidBufferSize) (fun _ => rfl) h)
  · have hstart := withoutWorking_congr (f := setBLK 0) (fun _ => rfl) h
    rcases cbcLoop_withoutWorking (blockCount len) 0 hstart with ⟨t, t', ht, ht', hw⟩ | ⟨f, ht, ht'⟩ <;>
      rw [cbcRun, ht, cbcRun, ht']
    exact congrArg Host.Outcome.next
      (withoutWorking_congr (f := fun u => respond (.status statusOk) (dropBlockScratch u)) (fun _ => rfl) hw)

/-- R21 (b): no command shows what the working registers held before. -/
theorem seen_exec_decode_withoutWorking (c : Command) (h : s.withoutWorking = s'.withoutWorking) :
    seen State.withoutWorking (exec (decode c) s) = seen State.withoutWorking (exec (decode c) s') := by
  rcases decode_cases c with ⟨-, hd⟩ | ⟨-, hd⟩ | ⟨-, hd⟩ | ⟨-, hd⟩ <;> rw [hd]
  · exact congrArg Host.Outcome.next (withoutWorking_congr (f := raise .illegalCommand) (fun _ => rfl) h)
  · exact seen_execConstruct_withoutWorking c.klen c.key c.iv c.dirv h
  · exact seen_execProcess_withoutWorking c.len h
  · exact congrArg Host.Outcome.next (withoutWorking_congr (f := fun u => respond (.ready u.READY) u) (fun _ => rfl) h)

/-- R108: what reset leaves of a command cut short does not depend on the working registers, before it or after. -/
theorem cutByReset_withoutWorking {t t' : State} (h : s.withoutWorking = s'.withoutWorking)
    (ht : t.withoutWorking = t'.withoutWorking) : cutByReset s t = cutByReset s' t' :=
  (congrArg₂ cutByReset h ht :)

theorem seen_step_withoutWorking (s s' : State) (h : s.withoutWorking = s'.withoutWorking) :
    seen State.withoutWorking (step s) = seen State.withoutWorking (step s') := by
  have hfacing (rest : List HostMove) : (s.facing rest).withoutWorking = (s'.facing rest).withoutWorking :=
    withoutWorking_congr (f := fun u => u.facing rest) (fun _ => rfl) h
  obtain ⟨-, -, -, -, hhost⟩ := eq_of_withoutWorking_eq h
  rw [← facing_self s, ← facing_self s', ← hhost]
  cases s.host with
  | nil => exact congrArg Host.Outcome.next (hfacing [])
  | cons m rest =>
    cases m with
    | command c => exact seen_exec_decode_withoutWorking c (hfacing rest)
    | buffer bytes =>
      exact congrArg Host.Outcome.next (withoutWorking_congr (f := presentBuffer bytes) (fun _ => rfl) (hfacing rest))
    | reset =>
      exact congrArg Host.Outcome.next (withoutWorking_congr (f := resetEngine) (fun _ => rfl) (hfacing rest))
    | resetDuring c =>
      rw [step_resetDuring, step_resetDuring]
      rcases seen_eq_cases (seen_exec_decode_withoutWorking c (hfacing rest)) with
        ⟨t, t', ht, ht', hw⟩ | ⟨f, ht, ht'⟩ | ⟨r, ht, ht'⟩ <;> rw [ht, ht']
      exact congrArg (fun u => Host.Outcome.next u.withoutWorking) (cutByReset_withoutWorking (hfacing rest) hw)

end

/-- Settles O34: one step from states alike but for the working registers ends alike, and so does every run. -/
theorem workingRegistersNeverBecomeVisible : Obligations.WorkingRegistersNeverBecomeVisible :=
  fun k _ _ h => run_seen seen_step_withoutWorking k h

end Sys2Proof.Machine

/-! ## The family 20_memory.md: the two access primitives, what each row does on the buffer port, and the canonical form -/

namespace Sys2Proof.Machine

open Sys2Proof

/-! ### MemRead and MemWrite -/

/-- Settles O37: sixteen bytes that all hold a value are those of a block, and MemRead answers that block. -/
theorem memReadIsLittleEndian : Obligations.MemReadIsLittleEndian := by
  intro s off h
  obtain ⟨v, hv⟩ := Memory.exists_block_of_firstMissing (Memory.firstMissing_eq_none.2 h)
  exact ⟨v, memRead_ok hv, hv⟩

/-- R31, log 5: writing the sixteen bytes a canonical buffer already holds leaves it equal, not only reading the same. -/
theorem Memory.writeBlock_eq_self {m : Memory} {off : Nat} {v : Block} (hm : m.wf = true)
    (h : ∀ i < 16, m.read (off + i) = some (byte v i)) : m.writeBlock off v = m := by
  refine Memory.ext_of_wf (Memory.wf_writeBlock off v hm) hm fun a => ?_
  by_cases ha : off ≤ a ∧ a < off + 16
  · obtain ⟨i, rfl⟩ := Nat.exists_eq_add_of_le ha.1
    have hi : i < 16 := by omega
    rw [Memory.read_writeBlock_inside m off v hi, h i hi]
  · exact Memory.read_writeBlock_outside m v (by omega)

/-- Settles O38: a block written reads back inside its sixteen bytes and changes none outside; what MemRead gave is what
those bytes hold. -/
theorem memWriteSetsSixteenBytesAndNoOther : Obligations.MemWriteSetsSixteenBytesAndNoOther := by
  refine ⟨fun s off v => ?_, fun s t off v hwf hread => ?_⟩
  · exact ⟨s.buf.writeBlock off v, rfl, fun i hi => Memory.read_writeBlock_inside s.buf off v hi,
      fun a ha => Memory.read_writeBlock_outside s.buf v ha⟩
  · obtain ⟨hv, -⟩ := memRead_inv hread
    rw [memWrite_buf]
    exact Memory.writeBlock_eq_self hwf hv

/-! ### What each row does on the buffer port -/

/-- An operation that may stop answers only with the state it computes. -/
theorem finish_eq_next {e : Except Fault State} {t : State} : finish e = .next t ↔ e = .ok t := by
  cases e <;> simp [finish]

/-- R59: ENCRYPTBLOCK works on registers alone. -/
theorem execEncryptBlock_port {v : Block} {s t : State} (h : execEncryptBlock v s = .next t) :
    t.accesses = s.accesses ∧ t.buf = s.buf := by
  rcases encryptBlock_cases v s with ⟨ks, -, he⟩ | ⟨i, -, -, he⟩ <;> rw [execEncryptBlock, he] at h <;> cases h
  exact ⟨rfl, rfl⟩

/-- R83: neither end of CONSTRUCT uses the buffer port. -/
theorem execConstruct_port {klen : Nat} {key : List Byte} {iv : Vector Byte 16} {dirv : Bool} {s t : State}
    (h : execConstruct klen key iv dirv s = .next t) : t.accesses = s.accesses ∧ t.buf = s.buf := by
  rcases execConstruct_cases klen key iv dirv s with ⟨-, he⟩ | ⟨k0, k1, -, -, he⟩ | ⟨-, -, he⟩ <;>
    rw [he] at h <;> cases h
  · exact ⟨rfl, rfl⟩
  · exact ⟨rfl, rfl⟩

/-- R85, R93, R94: a PROCESS that answers either raised, and did not use the buffer port, or passed both its tests and ran
its blocks. -/
theorem execProcess_port {len : Nat} {s t : State} (h : execProcess len s = .next t) :
    (t.accesses = s.accesses ∧ t.buf = s.buf) ∨
    (s.READY = true ∧ 0 < len ∧ len % 16 = 0 ∧
      ∃ u, cbcRun len s = .ok u ∧ t = respond (.status 0) (dropBlockScratch u)) := by
  rcases execProcess_cases len s with ⟨-, he⟩ | ⟨-, -, he⟩ | ⟨hr, hpos, hmod, ⟨u, hu, he⟩ | ⟨f, -, he⟩⟩ <;>
    rw [he] at h <;> cases h
  · exact .inl ⟨rfl, rfl⟩
  · exact .inl ⟨rfl, rfl⟩
  · exact .inr ⟨hr, hpos, hmod, u, hu, rfl⟩

/-- Everything a row that answers can have done on the buffer port (R34, R75, R76): nothing, one block step, or a block
loop, the last by itself or within a PROCESS that passed both its tests. -/
theorem exec_port_cases {i : Instr} {s t : State} (h : exec i s = .next t) :
    (t.accesses = s.accesses ∧ t.buf = s.buf) ∨
    (∃ n, i = .cbcBlock n ∧ cbcBlock n s = .ok t) ∨
    (∃ len, i = .cbcRun len ∧ cbcRun len s = .ok t) ∨
    (∃ len u, i = .process len ∧ s.READY = true ∧ 0 < len ∧ len % 16 = 0 ∧ cbcRun len s = .ok u ∧
      t = respond (.status 0) (dropBlockScratch u)) := by
  cases i with
  | construct klen key iv dirv => exact .inl (execConstruct_port h)
  | process len =>
    rcases execProcess_port h with hnone | ⟨hr, hpos, hmod, u, hu, ht⟩
    · exact .inl hnone
    · exact .inr (.inr (.inr ⟨len, u, rfl, hr, hpos, hmod, hu, ht⟩))
  | encryptBlock v => exact .inl (execEncryptBlock_port h)
  | cbcBlock n => exact .inr (.inl ⟨n, rfl, finish_eq_next.1 h⟩)
  | cbcRun len => exact .inr (.inr (.inl ⟨len, rfl, finish_eq_next.1 h⟩))
  | _ => cases h; exact .inl ⟨rfl, rfl⟩

/-- log 5: a block step keeps the buffer's canonical form. -/
theorem cbcBlock_buf_wf {n : Nat} {s t : State} (hs : s.buf.wf = true) (h : cbcBlock n s = .ok t) : t.buf.wf = true := by
  obtain ⟨ks, c, p, -, -, -, rfl⟩ := cbcBlock_inv h
  rw [afterBlock_buf]
  exact Memory.wf_writeBlock _ _ hs

/-- Settles O29: a row that touches the buffer does so by block steps, each of which keeps the canonical form. -/
theorem everyOperationKeepsTheBufferCanonical : Obligations.EveryOperationKeepsTheBufferCanonical := by
  intro i s t hwf h
  rcases exec_port_cases h with ⟨-, hbuf⟩ | ⟨n, -, ht⟩ | ⟨len, -, ht⟩ | ⟨len, u, -, -, -, -, hu, rfl⟩
  · rwa [hbuf]
  · exact cbcBlock_buf_wf hwf ht
  · exact cbcRun_buf_wf hwf ht
  · rw [respond_buf, dropBlockScratch_buf]
    exact cbcRun_buf_wf hwf hu

/-! ### The accesses of the commands -/

/-- R34: each block step is one read and one write. -/
theorem length_blockAccesses (c : Nat → Block) (n : Nat) : (blockAccesses c n).length = 2 * n := by
  induction n with
  | zero => rfl
  | succ n ih => simp only [blockAccesses, List.length_cons, ih]; omega

/-- Settles O21: a PROCESS with everything held makes the accesses of its block steps; any other command that answers falls
under the case of `exec_port_cases` with no access, as a PROCESS that ran has READY = 1 and a valid length. -/
theorem processReadsAndWritesEachBlockOnceInOrder : Obligations.ProcessReadsAndWritesEachBlockOnceInOrder := by
  refine ⟨fun s ks c p n hr hk hc hn hp => ?_, fun s t i hi h hraises => ?_⟩
  · refine ⟨_, execProcess_ok hr hk hc hn hp, ?_, length_blockAccesses _ n⟩
    rw [respond_accesses, dropBlockScratch_accesses, afterBlocks_accesses, setBLK_accesses]
  · rcases exec_port_cases h with hnone | ⟨n, rfl, -⟩ | ⟨len, rfl, -⟩ | ⟨len, u, rfl, hr, hpos, hmod, -⟩
    · exact hnone
    · cases hi
    · cases hi
    · rcases hraises with hnot | hbad
      · exact absurd (hr.symm.trans hnot) (by decide)
      · have := hbad len rfl
        omega

end Sys2Proof.Machine

/-! ## The family 30_encoding.md: the opcode map and its inverse, the text of commands and buffers, and the one response of
each command -/

namespace Sys2Proof.Machine

open Sys2Proof

/-! ### The command word (R47, R48) -/

/-- Settles O1: each clause is one equation of the decoder, and the reserved row raises IllegalCommand, whose status is 3. -/
theorem opcodeMapIsTotalAndAsTabled : Obligations.OpcodeMapIsTotalAndAsTabled := by
  refine fun c => ⟨fun h => ?_, fun h => ?_, fun h => ?_, fun h => ?_, fun s => rfl⟩ <;> rw [decode, h] <;> rfl

/-- R48: the rows with an encoding are those of format CMD. -/
theorem encode_isSome (i : Instr) : (encode i).isSome = i.isCommand := by
  cases i <;> rfl

/-- Settles O2: a row of format CMD has an encoding, and every encoding is decoded to its row. -/
theorem decodeOfEncodeGivesTheCommandBack : Obligations.DecodeOfEncodeGivesTheCommandBack := by
  intro p i _ hi
  obtain ⟨c, hc⟩ := Option.isSome_iff_exists.1 ((encode_isSome i).trans hi)
  exact ⟨c, hc, decode_of_encode hc⟩

/-- Settles O4: a row with an encoding is of format CMD, and so are the four rows the decoder can give. -/
theorem unitOperationsCannotBeIssued : Obligations.UnitOperationsCannotBeIssued := by
  refine ⟨fun i hi => ?_, fun c => ?_⟩
  · rw [← Option.not_isSome_iff_eq_none, encode_isSome, hi]
    exact Bool.false_ne_true
  · rcases decode_cases c with ⟨-, hd⟩ | ⟨-, hd⟩ | ⟨-, hd⟩ | ⟨-, hd⟩ <;> rw [hd, Instr.isCommand]

/-- Settles O12: the key length test passes, and a KEY of another number of bytes has no halves. -/
theorem constructRefusesKeyThatIsNotKlenBytes : Obligations.ConstructRefusesKeyThatIsNotKlenBytes := by
  intro s key iv dirv hkey
  rw [exec, execConstruct, if_pos ((keyLengthOk_iff 32).2 rfl), keyHalves_none hkey]

/-! ### Responses (R46) -/

/-- R76: the block loop gives no response. -/
theorem cbcRun_responses {len : Nat} {s u : State} (h : cbcRun len s = .ok u) : u.responses = s.responses := by
  rw [cbcRun_frame h]

/-- R83, R92: both ends of CONSTRUCT that answer give the completion. -/
theorem execConstruct_responses {klen : Nat} {key : List Byte} {iv : Vector Byte 16} {dirv : Bool} {s t : State}
    (h : execConstruct klen key iv dirv s = .next t) : t.responses = .completion :: s.responses := by
  rcases execConstruct_cases klen key iv dirv s with ⟨-, he⟩ | ⟨k0, k1, -, -, he⟩ | ⟨-, -, he⟩ <;>
    rw [he] at h <;> cases h
  · rfl
  · rfl

/-- R85: a PROCESS that answers gives status 0, or one of the statuses of its two tests. -/
theorem execProcess_responses {len : Nat} {s t : State} (h : execProcess len s = .next t) :
    ∃ r, t.responses = r :: s.responses ∧ (r = .status 0 ∨ r = .status 1 ∨ r = .status 2) := by
  rcases execProcess_cases len s with ⟨-, he⟩ | ⟨-, -, he⟩ | ⟨-, -, -, ⟨u, hu, he⟩ | ⟨f, -, he⟩⟩ <;>
    rw [he] at h <;> cases h
  · exact ⟨.status 2, rfl, .inr (.inr rfl)⟩
  · exact ⟨.status 1, rfl, .inr (.inl rfl)⟩
  · exact ⟨.status 0, by rw [respond_responses, dropBlockScratch_responses, cbcRun_responses hu], .inl rfl⟩

/-- Settles O32: the response of each of the four rows, the other clauses being about another word. -/
theorem everyCommandGivesExactlyOneResponse : Obligations.EveryCommandGivesExactlyOneResponse := by
  intro s t c rest h
  rw [step_command] at h
  rcases decode_cases c with ⟨hop, hd⟩ | ⟨hop, hd⟩ | ⟨hop, hd⟩ | ⟨hop, hd⟩ <;> rw [hd] at h
  · cases h
    exact ⟨.status 3, rfl, by simp [hop]⟩
  · exact ⟨.completion, execConstruct_responses (s := s.facing rest) h, by simp [hop]⟩
  · obtain ⟨r, hr, hcode⟩ := execProcess_responses h
    exact ⟨r, hr, by simp [hop], by simp [hop], fun _ => hcode, by simp [hop]⟩
  · cases h
    exact ⟨.ready s.READY, rfl, by simp [hop]⟩

/-! ### Digits and numbers (R8, R49) -/

theorem hexValue_hexDigit {n : Nat} (h : n < 16) : hexValue (hexDigit n) = some n := by
  interval_cases n <;> rfl

theorem space_ne_hexDigit {n : Nat} (h : n < 16) : ' ' ≠ hexDigit n := by
  interval_cases n <;> decide

theorem highDigit_lt (b : Byte) : b.toNat / 16 < 16 := Nat.div_lt_of_lt_mul b.isLt

theorem lowDigit_lt (b : Byte) : b.toNat % 16 < 16 := Nat.mod_lt _ (by decide)

/-- R8: a byte is its two hex digits, the first one of weight 16. -/
theorem byte_of_digits (b : Byte) : BitVec.ofNat 8 (16 * (b.toNat / 16) + b.toNat % 16) = b := by
  rw [Nat.div_add_mod, BitVec.ofNat_toNat, BitVec.setWidth_eq]

/-- R49: two digits a byte are read back as that byte. -/
theorem readHex_writeHex (bs : List Byte) : readHex (writeHex bs) = some bs := by
  induction bs with
  | nil => rfl
  | cons b bs ih =>
    simp [writeHex, readHex, hexValue_hexDigit (highDigit_lt b), hexValue_hexDigit (lowDigit_lt b), ih, byte_of_digits]

theorem space_notMem_writeHex (bs : List Byte) : ' ' ∉ writeHex bs := by
  induction bs with
  | nil => exact List.not_mem_nil
  | cons b bs ih =>
    exact List.not_mem_cons_of_ne_of_not_mem (space_ne_hexDigit (highDigit_lt b))
      (List.not_mem_cons_of_ne_of_not_mem (space_ne_hexDigit (lowDigit_lt b)) ih)

/-- Reading one decimal digit on. -/
theorem readDecFrom_hexDigit (n : Nat) {d : Nat} (hd : d < 10) (cs : List Char) :
    readDecFrom n (hexDigit d :: cs) = readDecFrom (10 * n + d) cs := by
  simp [readDecFrom, hexValue_hexDigit (show d < 16 by omega), hd]

/-- With enough fuel, the digits of `n` written before `acc` bring the reader from 0 to `n`. -/
theorem readDecFrom_decDigits {fuel n : Nat} (h : n < fuel) (acc : List Char) :
    readDecFrom 0 (decDigits fuel n acc) = readDecFrom n acc := by
  induction fuel generalizing n acc with
  | zero => omega
  | succ fuel ih =>
    rw [decDigits]
    split
    · next hn => rw [readDecFrom_hexDigit 0 hn, Nat.mul_zero, Nat.zero_add]
    · rw [ih (by omega), readDecFrom_hexDigit _ (Nat.mod_lt n (by decide)), Nat.div_add_mod]

theorem decDigits_ne_nil (fuel n : Nat) {acc : List Char} (h : acc ≠ []) : decDigits fuel n acc ≠ [] := by
  induction fuel generalizing n acc with
  | zero => exact h
  | succ fuel ih =>
    rw [decDigits]
    split
    · exact List.cons_ne_nil _ _
    · exact ih _ (List.cons_ne_nil _ _)

theorem writeDec_ne_nil (n : Nat) : writeDec n ≠ [] := by
  rw [writeDec, decDigits]
  split
  · exact List.cons_ne_nil _ _
  · exact decDigits_ne_nil _ _ (List.cons_ne_nil _ _)

theorem readDec_of_ne_nil {cs : List Char} (h : cs ≠ []) : readDec cs = readDecFrom 0 cs := by
  cases cs with
  | nil => exact absurd rfl h
  | cons c cs => rfl

theorem readDec_writeDec (n : Nat) : readDec (writeDec n) = some n := by
  rw [readDec_of_ne_nil (writeDec_ne_nil n), writeDec, readDecFrom_decDigits (Nat.lt_succ_self n), readDecFrom]

theorem space_notMem_decDigits (fuel n : Nat) {acc : List Char} (h : ' ' ∉ acc) : ' ' ∉ decDigits fuel n acc := by
  induction fuel generalizing n acc with
  | zero => exact h
  | succ fuel ih =>
    rw [decDigits]
    split
    · next hn => exact List.not_mem_cons_of_ne_of_not_mem (space_ne_hexDigit (by omega)) h
    · exact ih _ (List.not_mem_cons_of_ne_of_not_mem (space_ne_hexDigit (by omega)) h)

/-! ### Words of a line -/

/-- A word without a space is a line of one word. -/
theorem words_of_notMem {w : List Char} (h : ' ' ∉ w) : words w = [w] := by
  induction w with
  | nil => rfl
  | cons c cs ih =>
    rw [words, if_neg (List.ne_of_not_mem_cons h).symm, ih (List.not_mem_of_not_mem_cons h)]

/-- The first space ends the first word. -/
theorem words_append_space {w : List Char} (h : ' ' ∉ w) (rest : List Char) :
    words (w ++ ' ' :: rest) = w :: words rest := by
  induction w with
  | nil => rw [List.nil_append, words, if_pos rfl]
  | cons c cs ih =>
    rw [List.cons_append, words, if_neg (List.ne_of_not_mem_cons h).symm, ih (List.not_mem_of_not_mem_cons h)]

theorem after_append (head w : List Char) : after head (head ++ w) = some w := by
  induction head with
  | nil => rfl
  | cons c cs ih => rw [List.cons_append, after, if_pos rfl, ih]

/-! ### Commands and buffers as text (R49) -/

/-- A line of four words that begins with CONSTRUCT is read word by word. -/
theorem readCommand_construct {key iv dir : List Char} (hkey : ' ' ∉ key) (hiv : ' ' ∉ iv) (hdir : ' ' ∉ dir) :
    readCommand ("CONSTRUCT".toList ++ ' ' :: (key ++ ' ' :: (iv ++ ' ' :: dir))) = readConstruct key iv dir := by
  rw [readCommand, words_append_space (by decide), words_append_space hkey, words_append_space hiv, words_of_notMem hdir]
  exact if_pos rfl

/-- A line of two words that begins with PROCESS has its length operand in the second. -/
theorem readCommand_process {len : List Char} (hlen : ' ' ∉ "len=".toList ++ len) :
    readCommand ("PROCESS".toList ++ ' ' :: ("len=".toList ++ len)) = (readDec len).map Instr.process := by
  rw [readCommand, words_append_space (by decide), words_of_notMem hlen]
  refine (if_pos rfl).trans ?_
  rw [after_append, Option.map_eq_bind]
  rfl

/-- The operand words of a written CONSTRUCT are read back, KLEN as the number of key bytes. -/
theorem readConstruct_written (key : List Byte) (iv : Vector Byte 16) (dirv : Bool) :
    readConstruct ("key=".toList ++ writeHex key) ("iv=".toList ++ writeHex iv.toList)
      ("dir=".toList ++ [if dirv then '1' else '0']) = some (.construct key.length key iv dirv) := by
  simp only [readConstruct, after_append, readHex_writeHex, Option.bind_eq_bind, Option.bind_some]
  cases dirv <;> simp [Vector.toArray_toList]

theorem readCommand_writeCommand_construct (key : List Byte) (iv : Vector Byte 16) (dirv : Bool) :
    ∃ line, writeCommand (.construct key.length key iv dirv) = some line ∧
      readCommand line = some (.construct key.length key iv dirv) := by
  have hkey : ' ' ∉ "key=".toList ++ writeHex key := List.not_mem_append (by decide) (space_notMem_writeHex key)
  have hiv : ' ' ∉ "iv=".toList ++ writeHex iv.toList := List.not_mem_append (by decide) (space_notMem_writeHex _)
  have hdir : ' ' ∉ "dir=".toList ++ [if dirv then '1' else '0'] := by cases dirv <;> decide
  exact ⟨_, by simp [writeCommand], (readCommand_construct hkey hiv hdir).trans (readConstruct_written key iv dirv)⟩

theorem readCommand_writeCommand_process (len : Nat) :
    ∃ line, writeCommand (.process len) = some line ∧ readCommand line = some (.process len) := by
  have hlen : ' ' ∉ "len=".toList ++ writeDec len :=
    List.not_mem_append (by decide) (space_notMem_decDigits _ len List.not_mem_nil)
  refine ⟨"PROCESS".toList ++ ' ' :: ("len=".toList ++ writeDec len), by simp [writeCommand], ?_⟩
  rw [readCommand_process hlen, readDec_writeDec, Option.map_some]

/-- Settles O3: a written line parts at its spaces into the words it was made of, and the digits of each operand are read
back. -/
theorem writtenCommandsAreReadBack : Obligations.WrittenCommandsAreReadBack := by
  refine ⟨fun p i hwf hcmd hne => ?_, fun bytes => ?_⟩
  · cases i with
    | reserved => exact absurd rfl hne
    | construct klen key iv dirv =>
      obtain ⟨-, rfl⟩ : klen < 2 ^ p.klenw ∧ key.length = klen := by simpa [Instr.wf] using hwf
      exact readCommand_writeCommand_construct key iv dirv
    | process len => exact readCommand_writeCommand_process len
    | isReady => exact ⟨"ISREADY".toList, rfl, rfl⟩
    | _ => cases hcmd
  · rw [writeBuffer, readBuffer, after_append, Option.bind_eq_bind, Option.bind_some, readHex_writeHex]

end Sys2Proof.Machine

/-! ## The family 40_round_function.md: the field arithmetic, the table, the four transforms with what undoes each, the
rounds, and ENCRYPTBLOCK -/

namespace Sys2Proof.Machine

open Sys2Proof

/-! ### xtime and gmul (R50, R51) -/

theorem byte_xor_left_comm (x y z : Byte) : x ^^^ (y ^^^ z) = y ^^^ (x ^^^ z) := by ac_rfl

@[simp] theorem xtime_zero : xtime 0 = 0 := rfl

/-- Settles O39: R50 tests bit 7 for 0 where `xtime` tests it for 1. -/
theorem xtimeDoublesInGf : Obligations.XtimeDoublesInGf := by
  intro b s
  rw [exec, execXtime, xtime]
  cases b.getLsbD 7 <;> rfl

theorem xtime_iterate_xor (a b : Byte) (k : Nat) : xtime^[k] (a ^^^ b) = xtime^[k] a ^^^ xtime^[k] b := by
  induction k with
  | zero => rfl
  | succ k ih => simp only [Function.iterate_succ_apply', ih, xtime_xor]

/-- What bit `k` of `b` adds to `gmul a b`: the `k`-fold doubling of `a` if it is set. -/
def gmulTerm (a b : Byte) (k : Nat) : Byte := if b.getLsbD k then xtime^[k] a else 0

theorem gmulTerm_xor (a a' b : Byte) (k : Nat) : gmulTerm (a ^^^ a') b k = gmulTerm a b k ^^^ gmulTerm a' b k := by
  unfold gmulTerm
  split
  · exact xtime_iterate_xor a a' k
  · rfl

/-- R51's loop after `n` turns: the sum of the first `n` terms, and `a` doubled `n` times. -/
theorem foldl_gmulTurn (a b : Byte) (n : Nat) :
    (List.range n).foldl (gmulTurn b) (0, a) =
      ((List.range n).foldl (fun r k => r ^^^ gmulTerm a b k) 0, xtime^[n] a) := by
  induction n with
  | zero => rfl
  | succ n ih =>
    simp only [List.range_succ, List.foldl_append, List.foldl_cons, List.foldl_nil, ih, gmulTurn,
      Function.iterate_succ_apply', gmulTerm]
    split
    · rfl
    · rw [xor_zero]

theorem gmul_eq_terms (a b : Byte) :
    gmul a b = gmulTerm a b 0 ^^^ gmulTerm a b 1 ^^^ gmulTerm a b 2 ^^^ gmulTerm a b 3 ^^^ gmulTerm a b 4 ^^^
      gmulTerm a b 5 ^^^ gmulTerm a b 6 ^^^ gmulTerm a b 7 := by
  rw [gmul, foldl_gmulTurn]
  exact congrArg (· ^^^ _ ^^^ _ ^^^ _ ^^^ _ ^^^ _ ^^^ _ ^^^ _) (zero_xor (gmulTerm a b 0))

/-- R51: the product is linear in its first factor. -/
theorem gmul_xor (a a' b : Byte) : gmul (a ^^^ a') b = gmul a b ^^^ gmul a' b := by
  simp only [gmul_eq_terms, gmulTerm_xor]
  ac_rfl

theorem gmul_zero_left (b : Byte) : gmul 0 b = 0 := by simpa using gmul_xor 0 0 b

theorem gmul_zero (a : Byte) : gmul a 0 = 0 := by simp [gmul_eq_terms, gmulTerm]

theorem gmul_one (a : Byte) : gmul a 1 = a := by simp [gmul_eq_terms, gmulTerm]

theorem gmul_two (a : Byte) : gmul a 2 = xtime a := by simp [gmul_eq_terms, gmulTerm]

theorem gmul_three (a : Byte) : gmul a 3 = xtime a ^^^ a := by
  simp [gmul_eq_terms, gmulTerm, BitVec.xor_comm]

/-- Settles O40: the loop adds up its terms, and each small multiplier has at most two bits set. -/
theorem gmulIsTheProductInGf : Obligations.GmulIsTheProductInGf := by
  refine ⟨fun a b s => ⟨fun k => xtime^[k] a, rfl, fun k => Function.iterate_succ_apply' xtime k a, ?_⟩, fun a =>
    ⟨gmul_one a, gmul_two a, gmul_three a, gmul_zero a, gmul_zero_left a⟩⟩
  rw [exec, execGmul, gmul_eq_terms]
  rfl

/-! ### SBOX (R52) -/

/-- R52's affine map on a byte. -/
def sboxAffine (y : Byte) : Byte :=
  y ^^^ y.rotateLeft 1 ^^^ y.rotateLeft 2 ^^^ y.rotateLeft 3 ^^^ y.rotateLeft 4 ^^^ 0x63

/-- The map that undoes `sboxAffine`. -/
def sboxAffineInv (z : Byte) : Byte := z.rotateLeft 1 ^^^ z.rotateLeft 3 ^^^ z.rotateLeft 6 ^^^ 0x05

theorem sboxAffine_sboxAffineInv : ∀ z : Byte, sboxAffine (sboxAffineInv z) = z := by decide +kernel

/-- The inverse in GF(2^8), 0 for 0: what the table holds before the affine map. -/
def gfInverse (x : Byte) : Byte := sboxAffineInv (sbox x)

theorem sbox_eq_sboxAffine (x : Byte) : sbox x = sboxAffine (gfInverse x) := (sboxAffine_sboxAffineInv (sbox x)).symm

theorem gfInverse_zero : gfInverse 0 = 0 := by decide

theorem gmul_gfInverse : ∀ x : Byte, x ≠ 0 → gmul x (gfInverse x) = 1 := by decide +kernel

theorem gfInverse_gfInverse : ∀ x : Byte, gfInverse (gfInverse x) = x := by decide +kernel

/-- A byte is recovered from its table entry: undo the affine map and invert again. -/
theorem sbox_injective : Function.Injective sbox :=
  Function.LeftInverse.injective (g := fun z => gfInverse (sboxAffineInv z)) gfInverse_gfInverse

theorem sbox_ne_self : ∀ x : Byte, sbox x ≠ x := by decide +kernel

/-- Settles O41: the table is the affine map of `gfInverse`; a one to one map of the bytes to themselves is onto. -/
theorem sboxIsTheAffineMapOfTheInverse : Obligations.SboxIsTheAffineMapOfTheInverse :=
  ⟨fun _ _ => rfl,
    fun x => ⟨gfInverse x, fun h => by rw [h, gfInverse_zero], gmul_gfInverse x, sbox_eq_sboxAffine x⟩,
    fun _ _ h => sbox_injective h, Finite.surjective_of_injective sbox_injective, sbox_ne_self⟩

/-! ### SUBBYTES and SHIFTROWS (R53, R54) -/

/-- Settles O42: the bytes of SUBBYTES. -/
theorem subBytesReplacesEachByte : Obligations.SubBytesReplacesEachByte := fun v _ =>
  ⟨subBytes v, rfl, byte_subBytes v⟩

theorem subBytes_injective : Function.Injective subBytes := fun v w h =>
  block_ext_byte fun i hi => sbox_injective (by rw [← byte_subBytes v i hi, ← byte_subBytes w i hi, h])

theorem shiftRowsSource_row_col {r c : Nat} (hr : r < 4) : shiftRowsSource (r + 4 * c) = r + 4 * ((c + r) % 4) := by
  simp only [shiftRowsSource, show (r + 4 * c) % 4 = r by omega, show (r + 4 * c) / 4 = c by omega]

theorem shiftRowsSource_lt (i : Nat) : shiftRowsSource i < 16 := by
  simp only [shiftRowsSource]
  omega

/-- R54: a row rotated four times is back in place. -/
theorem shiftRows_four_times (v : Block) : shiftRows (shiftRows (shiftRows (shiftRows v))) = v := by
  have hsource : ∀ i < 16, shiftRowsSource (shiftRowsSource (shiftRowsSource (shiftRowsSource i))) = i := by decide
  exact block_ext_byte fun i hi => by simp [hi, shiftRowsSource_lt, hsource]

theorem shiftRows_injective : Function.Injective shiftRows :=
  Function.LeftInverse.injective (g := fun w => shiftRows (shiftRows (shiftRows w))) shiftRows_four_times

theorem shiftRows_of_equal_bytes {v : Block} {b : Byte} (h : ∀ i < 16, byte v i = b) : shiftRows v = v :=
  block_ext_byte fun i hi => by rw [byte_shiftRows v i hi, h _ (shiftRowsSource_lt i), h i hi]

theorem shiftRows_subBytes (v : Block) : shiftRows (subBytes v) = subBytes (shiftRows v) :=
  block_ext_byte fun i hi => by simp [hi, shiftRowsSource_lt]

/-- Settles O43: the source of each byte of SHIFTROWS lies in the block and, at row r and column c, where R54 says. -/
theorem shiftRowsRotatesEachRow : Obligations.ShiftRowsRotatesEachRow := by
  refine ⟨fun v s => ⟨shiftRows v, rfl, fun r hr c hc => ?_⟩, shiftRows_subBytes,
    fun v b h => shiftRows_of_equal_bytes h⟩
  rw [byte_shiftRows v _ (by omega), shiftRowsSource_row_col hr]

/-! ### MIXCOLUMNS (R55) -/

/-- Column `c` of the state array, by row (R9). -/
def column (v : Block) (c k : Nat) : Byte := byte v (4 * c + k)

theorem block_ext_column {v w : Block} (h : ∀ c < 4, ∀ k < 4, column v c k = column w c k) : v = w :=
  block_ext_byte fun i hi => by
    rw [← Nat.div_add_mod i 4]
    exact h (i / 4) (by omega) (i % 4) (by omega)

theorem column_xor (v w : Block) (c k : Nat) : column (v ^^^ w) c k = column v c k ^^^ column w c k := byte_xor v w _

/-- R55's matrix times the column whose four bytes are `a 0 .. a 3`. -/
def mixedColumn (a : Nat → Byte) : Nat → Byte := mixColumn (a 0) (a 1) (a 2) (a 3)

theorem column_mixColumns (v : Block) {c k : Nat} (hc : c < 4) (hk : k < 4) :
    column (mixColumns v) c k = mixedColumn (column v c) k := byte_mixColumns v hc hk

/-- A product looks at the four bytes of the column only. -/
theorem mixedColumn_congr {a b : Nat → Byte} (h : ∀ k < 4, a k = b k) : mixedColumn a = mixedColumn b := by
  rw [mixedColumn, mixedColumn, h 0 (by decide), h 1 (by decide), h 2 (by decide), h 3 (by decide)]

theorem mixedColumn_xor (a b : Nat → Byte) {k : Nat} (hk : k < 4) :
    mixedColumn (fun i => a i ^^^ b i) k = mixedColumn a k ^^^ mixedColumn b k := by
  interval_cases k <;> simp only [mixedColumn, mixColumn, gmul_xor] <;> ac_rfl

/-- The sum of the four bytes of a column. -/
def columnSum (a : Nat → Byte) : Byte := a 0 ^^^ a 1 ^^^ a 2 ^^^ a 3

/-- Row k of R55's matrix has 2 at k, 3 at k + 1 and 1 elsewhere: the sum of the column, the byte at k once more, and twice
the bytes at k and k + 1. -/
theorem mixedColumn_eq (a : Nat → Byte) {k : Nat} (hk : k < 4) :
    mixedColumn a k = a k ^^^ columnSum a ^^^ xtime (a k ^^^ a ((k + 1) % 4)) := by
  interval_cases k <;>
    simp only [mixedColumn, mixColumn, columnSum, gmul_two, gmul_three, xtime_xor, Nat.reduceAdd, Nat.reduceMod,
      xor_assoc, BitVec.xor_comm, byte_xor_left_comm, xor_cancel_left]

theorem mixedColumn_const (b : Byte) {k : Nat} (hk : k < 4) : mixedColumn (fun _ => b) k = b := by
  simp only [mixedColumn_eq _ hk, columnSum, LawfulXor.xor_self, xtime_zero, xor_zero, zero_xor]

/-- The entries of each column of R55's matrix sum to 1. -/
theorem columnSum_mixedColumn (a : Nat → Byte) : columnSum (mixedColumn a) = columnSum a := by
  simp only [columnSum, mixedColumn, mixColumn, gmul_two, gmul_three]
  generalize xtime (a 0) = d0, xtime (a 1) = d1, xtime (a 2) = d2, xtime (a 3) = d3
  simp only [xor_assoc, BitVec.xor_comm, byte_xor_left_comm, xor_cancel_left]

/-- The square of R55's matrix: each byte with four times its sum with the byte two rows on. -/
theorem mixedColumn_mixedColumn (a : Nat → Byte) {k : Nat} (hk : k < 4) :
    mixedColumn (mixedColumn a) k = xtime (xtime (a k ^^^ a ((k + 2) % 4))) ^^^ a k := by
  have hk1 : (k + 1) % 4 < 4 := Nat.mod_lt _ (by decide)
  have hnext : ((k + 1) % 4 + 1) % 4 = (k + 2) % 4 := by omega
  rw [mixedColumn_eq _ hk, columnSum_mixedColumn, mixedColumn_eq a hk, mixedColumn_eq a hk1, hnext]
  simp only [xtime_xor, xor_assoc, BitVec.xor_comm, byte_xor_left_comm, xor_cancel_left]

theorem mixColumns_xor (x y : Block) : mixColumns (x ^^^ y) = mixColumns x ^^^ mixColumns y :=
  block_ext_column fun c hc k hk => by
    rw [column_xor, column_mixColumns x hc hk, column_mixColumns y hc hk, column_mixColumns _ hc hk,
      mixedColumn_congr fun i _ => column_xor x y c i, mixedColumn_xor _ _ hk]

theorem mixColumns_zero : mixColumns 0 = 0 := by simpa using mixColumns_xor 0 0

theorem column_mixColumns_of_equal {v : Block} {c k : Nat} {b : Byte} (hc : c < 4) (h : ∀ i < 4, column v c i = b)
    (hk : k < 4) : column (mixColumns v) c k = b := by
  rw [column_mixColumns v hc hk, mixedColumn_congr h, mixedColumn_const b hk]

theorem column_mixColumns_twice (v : Block) {c k : Nat} (hc : c < 4) (hk : k < 4) :
    column (mixColumns (mixColumns v)) c k =
      xtime (xtime (column v c k ^^^ column v c ((k + 2) % 4))) ^^^ column v c k := by
  rw [column_mixColumns _ hc hk, mixedColumn_congr fun i hi => column_mixColumns v hc hi, mixedColumn_mixedColumn _ hk]

/-- The fourth power of R55's matrix is the identity: squaring twice, what was added is added again. -/
theorem mixColumns_four_times (v : Block) : mixColumns (mixColumns (mixColumns (mixColumns v))) = v :=
  block_ext_column fun c hc k hk => by
    have hk2 : (k + 2) % 4 < 4 := Nat.mod_lt _ (by decide)
    have hback : ((k + 2) % 4 + 2) % 4 = k := by omega
    rw [column_mixColumns_twice _ hc hk, column_mixColumns_twice v hc hk, column_mixColumns_twice v hc hk2, hback]
    generalize column v c k = b, column v c ((k + 2) % 4) = b'
    have hsum (d : Byte) : d ^^^ b ^^^ (d ^^^ b') = b ^^^ b' := by
      rw [xor_comm d b, xor_assoc, xor_cancel_left]
    rw [xor_comm b' b, hsum, xor_cancel_left]

theorem mixColumns_injective : Function.Injective mixColumns :=
  Function.LeftInverse.injective (g := fun w => mixColumns (mixColumns (mixColumns w))) mixColumns_four_times

/-- Settles O44: the columns of MIXCOLUMNS, one by one. -/
theorem mixColumnsMultipliesEachColumn : Obligations.MixColumnsMultipliesEachColumn := by
  refine ⟨fun v s => ⟨mixColumns v, rfl, fun c hc => ?_⟩, mixColumns_xor, mixColumns_zero,
    fun v c b hc h k hk => column_mixColumns_of_equal hc h hk⟩
  exact ⟨column_mixColumns v hc (k := 0) (by decide), column_mixColumns v hc (k := 1) (by decide),
    column_mixColumns v hc (k := 2) (by decide), column_mixColumns v hc (k := 3) (by decide)⟩

/-! ### ADDROUNDKEY and the two kinds of round (R56 to R58) -/

/-- Settles O45: the laws of exclusive-or. -/
theorem addRoundKeyIsExclusiveOr : Obligations.AddRoundKeyIsExclusiveOr :=
  ⟨fun _ _ _ => rfl, fun v k w =>
    ⟨BitVec.xor_self, BitVec.xor_zero, BitVec.xor_comm v k, BitVec.xor_assoc v k w, xor_cancel_right v k⟩⟩

theorem addRoundKey_injective (k : Block) : Function.Injective (addRoundKey · k) := (xor_left_involutive k).injective

theorem encRound_injective (k : Block) : Function.Injective (encRound · k) :=
  (addRoundKey_injective k).comp (mixColumns_injective.comp (shiftRows_injective.comp subBytes_injective))

theorem encLast_injective (k : Block) : Function.Injective (encLast · k) :=
  (addRoundKey_injective k).comp (shiftRows_injective.comp subBytes_injective)

/-- SUBBYTES and SHIFTROWS of zero leave the table entry of 0 in every byte. -/
theorem byte_shiftRows_subBytes_zero {i : Nat} (hi : i < 16) : byte (shiftRows (subBytes 0)) i = 0x63 := by
  rw [byte_shiftRows _ i hi, byte_subBytes _ _ (shiftRowsSource_lt i), byte_zero]
  rfl

/-- R57: MIXCOLUMNS leaves a block of equal bytes. -/
theorem byte_encRound_zero {i : Nat} (hi : i < 16) : byte (encRound 0 0) i = 0x63 := by
  rw [encRound, addRoundKey, xor_zero, ← Nat.div_add_mod i 4]
  exact column_mixColumns_of_equal (by omega) (fun k hk => byte_shiftRows_subBytes_zero (by omega)) (by omega)

/-- R58: no MIXCOLUMNS. -/
theorem byte_encLast_zero {i : Nat} (hi : i < 16) : byte (encLast 0 0) i = 0x63 := by
  rw [encLast, addRoundKey, xor_zero, byte_shiftRows_subBytes_zero hi]

/-- Settles O46: the key enters last, and each stage keeps the bytes equal when both operands are zero. -/
theorem encRoundIsTheFourStages : Obligations.EncRoundIsTheFourStages :=
  ⟨fun _ _ _ => rfl, encRound_key, fun _ hi => byte_encRound_zero hi⟩

/-- Settles O47: as ENCROUND, with one stage less. -/
theorem encLastHasNoMixColumns : Obligations.EncLastHasNoMixColumns :=
  ⟨fun _ _ _ => rfl, encLast_key, fun _ hi => byte_encLast_zero hi⟩

/-! ### ENCRYPTBLOCK (R59) -/

/-- R59: with all round keys held, ENCRYPTBLOCK completes, S and the result are the cipher's value, and RND is 14. -/
theorem exec_encryptBlock {s : State} {ks : Fin 15 → Block} (h : s.HoldsKeys ks) (v : Block) :
    exec (.encryptBlock v) s =
      .next { s with S := some (cipher ks v), RND := some 14, unitOut := some (.block (cipher ks v)) } := by
  rw [exec, execEncryptBlock, encryptBlock_ok h]
  rfl

/-- The block after whitening and the first `r` full rounds. -/
def blockAfterRounds (ks : Fin 15 → Block) (v : Block) (r : Nat) : Block :=
  (fullRounds.take r).foldl (fun x q => encRound x (ks q)) (addRoundKey v (ks 0))

/-- The blocks of R59's rounds, the final one included. -/
def roundBlock (ks : Fin 15 → Block) (v : Block) (r : Fin 15) : Block :=
  if r = 14 then cipher ks v else blockAfterRounds ks v r

theorem roundBlock_full (ks : Fin 15 → Block) (v : Block) {r : Fin 15} (h1 : 1 ≤ r.val) (h13 : r.val ≤ 13) :
    roundBlock ks v r = encRound (roundBlock ks v (r - 1)) (ks r) := by
  obtain ⟨r, hr⟩ := r
  interval_cases r <;> rfl

/-- Settles O48: the rounds of `cipher`, cut after each. -/
theorem encryptBlockRunsFourteenRounds : Obligations.EncryptBlockRunsFourteenRounds := fun _ ks v h =>
  ⟨roundBlock ks v, rfl, fun _ => roundBlock_full ks v, rfl, exec_encryptBlock h v⟩

/-- Rounds one after another are one to one, as each is. -/
theorem foldl_encRound_injective (ks : Fin 15 → Block) (rs : List (Fin 15)) :
    Function.Injective (rs.foldl (fun x r => encRound x (ks r))) := by
  induction rs with
  | nil => exact Function.injective_id
  | cons r rs ih => exact ih.comp (encRound_injective (ks r))

theorem cipher_injective (ks : Fin 15 → Block) : Function.Injective (cipher ks) :=
  fun v w h => by
    rw [cipher, cipher] at h
    exact addRoundKey_injective _ (foldl_encRound_injective ks fullRounds (encLast_injective _ h))

/-- R59: "It is a bijection on 128-bit values for fixed `RK`". -/
theorem cipher_bijective (ks : Fin 15 → Block) : Function.Bijective (cipher ks) :=
  Finite.injective_iff_bijective.1 (cipher_injective ks)

/-- Settles O49: the result of ENCRYPTBLOCK is the cipher's value, and every stage of the cipher is one to one. -/
theorem encryptBlockIsABijection : Obligations.EncryptBlockIsABijection := by
  intro s ks h y
  obtain ⟨v, hv⟩ := (cipher_bijective ks).surjective y
  refine ⟨v, ⟨_, exec_encryptBlock h v, by rw [hv]⟩, fun w t hw ht => cipher_injective ks ?_⟩
  rw [exec_encryptBlock h w] at hw
  cases hw
  cases ht
  exact hv.symm

end Sys2Proof.Machine

/-! ## The family 41_key_schedule.md: the word operations, the register-level steps, the two recurrences, and EXPAND, block
by block and word by word -/

namespace Sys2Proof.Machine

open Sys2Proof

/-! ### Word operations (R63, R64) -/

/-- Settles O50: the bytes of SUBWORD. -/
theorem subWordReplacesEachByte : Obligations.SubWordReplacesEachByte := fun w _ =>
  ⟨subWord w, rfl, wbyte_subWord w⟩

/-- R64: byte k of the result is the next byte of the operand, byte 0 after byte 3. -/
@[simp] theorem wbyte_rotWord (w : Word) (k : Nat) (h : k < 4) : wbyte (rotWord w) k = wbyte w ((k + 1) % 4) := by
  apply BitVec.eq_of_getLsbD_eq
  intro j hj
  simp only [wbyte, rotWord, BitVec.getLsbD_extractLsb', BitVec.getLsbD_or, BitVec.getLsbD_ushiftRight,
    BitVec.getLsbD_shiftLeft, hj, decide_true, Bool.true_and]
  by_cases hk : k = 3
  · subst hk
    simp [show 24 + j < 32 by omega, BitVec.getLsbD_of_ge w (8 + (24 + j)) (by omega)]
  · simp [show 8 * k + j < 24 by omega, show (k + 1) % 4 = k + 1 by omega,
      show 8 + (8 * k + j) = 8 * (k + 1) + j by omega]

/-- R64: "so NC's 'apply the AES S-box/rotate transform to a rotated copy' has one meaning whichever is done first". -/
theorem rotWord_subWord (w : Word) : rotWord (subWord w) = subWord (rotWord w) :=
  word_ext_wbyte fun k hk => by simp [hk, Nat.mod_lt]

theorem rotWord_of_equal_bytes {w : Word} {b : Byte} (h : ∀ k < 4, wbyte w k = b) : rotWord w = w :=
  word_ext_wbyte fun k hk => by rw [wbyte_rotWord w k hk, h _ (Nat.mod_lt _ (by decide)), h k hk]

/-- Settles O51: the bytes of ROTWORD one by one. -/
theorem rotWordMovesByteOneToByteZero : Obligations.RotWordMovesByteOneToByteZero := by
  refine ⟨fun w s => ⟨rotWord w, rfl, rfl, ?_⟩, rotWord_subWord, fun w b h => rotWord_of_equal_bytes h⟩
  exact ⟨wbyte_rotWord w 0 (by decide), wbyte_rotWord w 1 (by decide), wbyte_rotWord w 2 (by decide),
    wbyte_rotWord w 3 (by decide)⟩

/-! ### Register-level steps (R66 to R68) -/

/-- Settles O52: the words of KEYASSIST. -/
theorem keyAssistWordsAreAsTabled : Obligations.KeyAssistWordsAreAsTabled := fun x rc _ =>
  ⟨keyAssist x rc, rfl, word_keyAssist x rc 3 (by decide), word_keyAssist x rc 2 (by decide),
    word_keyAssist x rc 1 (by decide), word_keyAssist x rc 0 (by decide)⟩

/-- Settles O53: the words of BCAST. -/
theorem bcastCopiesOneWord : Obligations.BcastCopiesOneWord := fun a j _ => ⟨bcast a j, rfl, word_bcast a j⟩

/-- With X the 32-bit shift, (1 + X)^2 = 1 + X^2. -/
theorem diffuseTurn_diffuseTurn (t : Block) : diffuseTurn (diffuseTurn t) = t ^^^ (t <<< 64) := by
  rw [diffuseTurn, diffuseTurn, BitVec.shiftLeft_xor_distrib, ← BitVec.shiftLeft_add, xor_assoc, xor_cancel_left]

/-- R68: (1 + X)^3 = 1 + X + X^2 + X^3, the other reading of NC's sentence. -/
theorem diffuse_eq_shifts (t : Block) : diffuse t = t ^^^ (t <<< 32) ^^^ (t <<< 64) ^^^ (t <<< 96) := by
  have h96 : t <<< 32 <<< 64 = t <<< 96 := (BitVec.shiftLeft_add t 32 64).symm
  rw [diffuse, diffuseTurn_diffuseTurn, diffuseTurn, BitVec.shiftLeft_xor_distrib, h96, ← xor_assoc]

/-- Settles O54: the words of DIFFUSE, and the three turns multiplied out. -/
theorem diffuseSumsThePrecedingWords : Obligations.DiffuseSumsThePrecedingWords := fun t _ => by
  obtain ⟨h0, h1, h2, h3⟩ := word_diffuse t
  exact ⟨diffuse t, rfl, h0, h1, h2, h3, diffuse_eq_shifts t⟩

/-! ### The two recurrences (R69, R70) -/

/-- Word i + 1 of DIFFUSE adds one word to the sum that word i is. -/
theorem word_diffuse_succ (t : Block) {i : Nat} (h : i < 3) :
    word (diffuse t) (i + 1) = word t (i + 1) ^^^ word (diffuse t) i := by
  obtain ⟨h0, h1, h2, h3⟩ := word_diffuse t
  interval_cases i
  · rw [h0, h1, BitVec.xor_comm]
  · rw [h1, h2, BitVec.xor_comm]
  · rw [h2, h3, BitVec.xor_comm]

/-- What KSEVEN and KSODD share: adding one word to all four keeps each word the sum of its own and the one before. -/
theorem word_diffuse_xor_bcast_succ (t a : Block) (j : Fin 4) {i : Nat} (h : i < 3) :
    word (diffuse t ^^^ bcast a j) (i + 1) = word t (i + 1) ^^^ word (diffuse t ^^^ bcast a j) i := by
  rw [word_xor, word_xor, word_diffuse_succ t h, word_bcast a j _ (by omega), word_bcast a j _ (by omega), xor_assoc]

theorem word_diffuse_xor_bcast_zero (t a : Block) (j : Fin 4) :
    word (diffuse t ^^^ bcast a j) 0 = word t 0 ^^^ word a j := by
  rw [word_xor, (word_diffuse t).1, word_bcast a j 0 (by decide)]

theorem word_ksEven_zero (e o : Block) (rc : Byte) :
    word (ksEven e o rc) 0 = word e 0 ^^^ (rotWord (subWord (word o 3)) ^^^ rc.setWidth 32) := by
  rw [ksEven, word_diffuse_xor_bcast_zero]
  exact congrArg (word e 0 ^^^ ·) (word_keyAssist o rc 3 (by decide))

theorem word_ksEven_succ (e o : Block) (rc : Byte) {i : Nat} (h : i < 3) :
    word (ksEven e o rc) (i + 1) = word e (i + 1) ^^^ word (ksEven e o rc) i := word_diffuse_xor_bcast_succ e _ 3 h

theorem word_ksOdd_zero (o e : Block) : word (ksOdd o e) 0 = word o 0 ^^^ subWord (word e 3) := by
  rw [ksOdd, word_diffuse_xor_bcast_zero]
  exact congrArg (word o 0 ^^^ ·) (word_keyAssist e 0 2 (by decide))

theorem word_ksOdd_succ (o e : Block) {i : Nat} (h : i < 3) :
    word (ksOdd o e) (i + 1) = word o (i + 1) ^^^ word (ksOdd o e) i := word_diffuse_xor_bcast_succ o _ 2 h

/-- Settles O55: the words of KSEVEN. -/
theorem ksEvenIsTheEvenRecurrence : Obligations.KsEvenIsTheEvenRecurrence := fun e o rc _ =>
  ⟨ksEven e o rc, rfl, rfl, word_ksEven_zero e o rc, fun _ => word_ksEven_succ e o rc⟩

/-- Settles O56: the words of KSODD. -/
theorem ksOddIsTheOddRecurrence : Obligations.KsOddIsTheOddRecurrence := fun o e _ =>
  ⟨ksOdd o e, rfl, rfl, word_ksOdd_zero o e, fun _ => word_ksOdd_succ o e⟩

/-! ### EXPAND block by block (R71, R74) -/

theorem roundKey_even (k0 k1 : Block) (n : Nat) : roundKey k0 k1 (2 * n) = (keyPair k0 k1 n).1 := by
  rw [roundKey, if_pos (by omega), show 2 * n / 2 = n by omega]

theorem roundKey_odd (k0 k1 : Block) (n : Nat) : roundKey k0 k1 (2 * n + 1) = (keyPair k0 k1 n).2 := by
  rw [roundKey, if_neg (by omega), show (2 * n + 1) / 2 = n by omega]

theorem roundKey_even_succ (k0 k1 : Block) (n : Nat) :
    roundKey k0 k1 (2 * (n + 1)) = ksEven (roundKey k0 k1 (2 * n)) (roundKey k0 k1 (2 * n + 1)) (0x01#8 <<< n) := by
  rw [roundKey_even, roundKey_even, roundKey_odd, keyPair]

theorem roundKey_odd_succ (k0 k1 : Block) (n : Nat) :
    roundKey k0 k1 (2 * (n + 1) + 1) = ksOdd (roundKey k0 k1 (2 * n + 1)) (roundKey k0 k1 (2 * (n + 1))) := by
  rw [roundKey_odd, roundKey_odd, roundKey_even, keyPair]

/-- R71, R74: what EXPAND writes, in terms of the recurrence. -/
theorem exec_expand (k0 k1 : Block) (s : State) :
    exec (.expand k0 k1) s = .next { s with
      RK := Vector.ofFn fun i => some (roundKey k0 k1 i), T1 := some (roundKey k0 k1 14)
      T2 := some (keyAssist (roundKey k0 k1 13) 0x40), T3 := some (roundKey k0 k1 13)
      RCON := some 0x80, KIDX := some 14 } := by
  rw [exec, execExpand, expand, roundKeys_eq, keySchedule_eq]

/-- Settles O57: the round keys of a key, each pair from the pair before it. -/
theorem expandAlternatesTheTwoRecurrences : Obligations.ExpandAlternatesTheTwoRecurrences := by
  refine fun k0 k1 s => ⟨roundKey k0 k1, exec_expand k0 k1 s, rfl, rfl, fun n h _ => ?_, fun n h _ => ?_⟩ <;>
    obtain ⟨m, rfl⟩ := Nat.exists_eq_add_of_le' h
  · exact roundKey_even_succ k0 k1 m
  · exact roundKey_odd_succ k0 k1 m

/-! ### EXPAND word by word (R72) -/

/-- Word i of the schedule: w[4m + j] = word(RK[m], j) (R72). -/
def scheduleWord (k0 k1 : Block) (i : Nat) : Word := word (roundKey k0 k1 (i / 4)) (i % 4)

theorem scheduleWord_eq (k0 k1 : Block) {i : Nat} (m j : Nat) (hj : j < 4) (hi : i = 4 * m + j) :
    scheduleWord k0 k1 i = word (roundKey k0 k1 m) j := by
  rw [scheduleWord, show i / 4 = m by omega, show i % 4 = j by omega]

/-- R65: none of the constants used is shifted out of its byte. -/
theorem setWidth_roundConstant : ∀ n < 8, (0x01#8 <<< n).setWidth 32 = 0x01#32 <<< n := by decide

/-- R72 at i = 8n + 8: word 0 of an even round key. -/
theorem scheduleWord_even_zero (k0 k1 : Block) {n : Nat} (h : n < 8) :
    scheduleWord k0 k1 (8 * n + 8) = scheduleWord k0 k1 (8 * n) ^^^
      (rotWord (subWord (scheduleWord k0 k1 (8 * n + 7))) ^^^ (0x01#32 <<< n)) := by
  rw [scheduleWord_eq k0 k1 (2 * (n + 1)) 0 (by decide) (by omega),
    scheduleWord_eq k0 k1 (2 * n) 0 (by decide) (by omega),
    scheduleWord_eq k0 k1 (2 * n + 1) 3 (by decide) (by omega),
    roundKey_even_succ, word_ksEven_zero, setWidth_roundConstant n h]

/-- R72 at i = 8n + 12: word 0 of an odd round key. -/
theorem scheduleWord_odd_zero (k0 k1 : Block) (n : Nat) :
    scheduleWord k0 k1 (8 * n + 12) =
      scheduleWord k0 k1 (8 * n + 4) ^^^ subWord (scheduleWord k0 k1 (8 * n + 11)) := by
  rw [scheduleWord_eq k0 k1 (2 * (n + 1) + 1) 0 (by decide) (by omega),
    scheduleWord_eq k0 k1 (2 * n + 1) 0 (by decide) (by omega),
    scheduleWord_eq k0 k1 (2 * (n + 1)) 3 (by decide) (by omega), roundKey_odd_succ, word_ksOdd_zero]

/-- In a round key of either parity, a word after the first adds the word before it to the word two round keys back. -/
theorem word_roundKey_succ (k0 k1 : Block) (m : Nat) {j : Nat} (h : j < 3) :
    word (roundKey k0 k1 (m + 2)) (j + 1) = word (roundKey k0 k1 m) (j + 1) ^^^ word (roundKey k0 k1 (m + 2)) j := by
  obtain ⟨n, rfl | rfl⟩ := Nat.even_or_odd' m
  · rw [show 2 * n + 2 = 2 * (n + 1) by omega, roundKey_even_succ]
    exact word_ksEven_succ _ _ _ h
  · rw [show 2 * n + 1 + 2 = 2 * (n + 1) + 1 by omega, roundKey_odd_succ]
    exact word_ksOdd_succ _ _ h

/-- R72 at an i that is no multiple of 4: a later word of a round key. -/
theorem scheduleWord_later (k0 k1 : Block) {i : Nat} (h : i % 4 ≠ 0) :
    scheduleWord k0 k1 (i + 8) = scheduleWord k0 k1 i ^^^ scheduleWord k0 k1 (i + 7) := by
  obtain ⟨j, hj⟩ : ∃ j, i % 4 = j + 1 := Nat.exists_eq_succ_of_ne_zero h
  rw [scheduleWord_eq k0 k1 (i / 4 + 2) (j + 1) (by omega) (by omega),
    scheduleWord_eq k0 k1 (i / 4) (j + 1) (by omega) (by omega),
    scheduleWord_eq k0 k1 (i / 4 + 2) j (by omega) (by omega), word_roundKey_succ k0 k1 _ (by omega)]

/-- R72: the words of the schedule satisfy the standard's recurrence for Nk = 8. -/
theorem scheduleWord_recurrence (k0 k1 : Block) {i : Nat} (h8 : 8 ≤ i) (h59 : i ≤ 59) :
    scheduleWord k0 k1 i = scheduleWord k0 k1 (i - 8) ^^^
      (if i % 8 = 0 then rotWord (subWord (scheduleWord k0 k1 (i - 1))) ^^^ (0x01#32 <<< (i / 8 - 1))
       else if i % 8 = 4 then subWord (scheduleWord k0 k1 (i - 1)) else scheduleWord k0 k1 (i - 1)) := by
  split_ifs with h0 h4
  · obtain ⟨n, rfl⟩ : ∃ n, i = 8 * n + 8 := ⟨i / 8 - 1, by omega⟩
    rw [scheduleWord_even_zero k0 k1 (by omega), show (8 * n + 8) / 8 - 1 = n by omega]
    rfl
  · obtain ⟨n, rfl⟩ : ∃ n, i = 8 * n + 12 := ⟨i / 8 - 1, by omega⟩
    exact scheduleWord_odd_zero k0 k1 n
  · obtain ⟨i, rfl⟩ := Nat.exists_eq_add_of_le' h8
    exact scheduleWord_later k0 k1 (by omega)

/-- Settles O58: the words are those of the round keys EXPAND writes, and the key's own come first. -/
theorem expandMeetsTheFipsWordRecurrence : Obligations.ExpandMeetsTheFipsWordRecurrence := by
  refine fun k0 k1 s => ⟨_, scheduleWord k0 k1, exec_expand k0 k1 s, fun i j hj => ?_, fun j hj => ⟨?_, ?_⟩,
    fun i => scheduleWord_recurrence k0 k1⟩
  · simp [scheduleWord_eq k0 k1 i j hj rfl]
  · exact scheduleWord_eq k0 k1 0 j hj (by omega)
  · exact scheduleWord_eq k0 k1 1 j hj (by omega)

end Sys2Proof.Machine

/-! ## The family 42_cbc_controller.md: one block step, the run of block steps and its closed form, PROCESS, the chain from
buffer to buffer and from block to block, and the direction flag, which no step shows -/

namespace Sys2Proof.Machine

open Sys2Proof

/-! ### One block (R75) -/

/-- R75: with everything held, CBCBLOCK run by itself completes. -/
theorem exec_cbcBlock {s : State} {ks : Fin 15 → Block} {c p : Block} {n : Nat} (hk : s.HoldsKeys ks)
    (hc : s.CS = some c) (hp : ∀ i < 16, s.buf.read (16 * n + i) = some (byte p i)) :
    exec (.cbcBlock n) s = .next (afterBlock n (cipher ks (p ^^^ c)) s) := by
  rw [exec, execCbcBlock, cbcBlock_ok hk hc hp, finish]

/-- Settles O59: the state is `afterBlock`, whose buffer is the old one with one block written. -/
theorem cbcBlockChainsEncryptsAndStores : Obligations.CbcBlockChainsEncryptsAndStores := by
  intro s ks c p n hk hc hp
  refine ⟨_, exec_cbcBlock hk hc hp, rfl, fun i hi => ?_, fun a ha => ?_⟩ <;> rw [afterBlock_buf]
  · exact Memory.read_writeBlock_inside _ _ _ hi
  · exact Memory.read_writeBlock_outside _ _ ha

/-! ### The run of block steps (R76, R81) -/

/-- What the first `n` block steps of CBCRUN leave, on blocks `p` with round keys `ks` and chain value `c`. -/
abbrev afterChain (ks : Fin 15 → Block) (c : Block) (p : Nat → Block) (n : Nat) (s : State) : State :=
  afterBlocks (fun j => chain ks c p (j + 1)) n 0 (setBLK 0 s)

section
variable (ks : Fin 15 → Block) (c : Block) (p : Nat → Block) (n : Nat) (s : State)

/-- R76: one block step and BLK moved on lead from `n` steps to `n + 1`. -/
theorem afterChain_succ : afterChain ks c p (n + 1) s =
    setBLK (n + 1) (afterBlock n (cipher ks (p n ^^^ chain ks c p n)) (afterChain ks c p n s)) := by
  rw [afterChain, afterBlocks_succ, Nat.zero_add]
  rfl

/-- R81: the buffer holds `C[0] .. C[n - 1]`. -/
theorem afterChain_holdsBlocks : (afterChain ks c p n s).buf.HoldsBlocks (fun j => chain ks c p (j + 1)) n :=
  fun j hj i hi => (afterBlocks_read _ n 0 _).1 j i (Nat.zero_le j) (by omega) hi

theorem afterChain_read_above {a : Nat} (h : 16 * n ≤ a) : (afterChain ks c p n s).buf.read a = s.buf.read a :=
  (afterBlocks_read _ n 0 _).2 a (by omega)

/-- R76: the fields no block step writes. -/
theorem afterChain_frame : let t := afterChain ks c p n s
    t = { s with S := t.S, RND := t.RND, CS := t.CS, BLK := t.BLK, buf := t.buf, accesses := t.accesses } :=
  afterBlocks_frame _ n 0 (setBLK 0 s)

theorem afterChain_accesses : (afterChain ks c p n s).accesses = blockAccesses (chain ks c p) n ++ s.accesses :=
  afterBlocks_accesses (chain ks c p) n (setBLK 0 s)

variable {ks c p n s}

/-- R76: what a run of at least one block leaves in the working registers. -/
theorem afterChain_S_RND_BLK (hn : 0 < n) : let t := afterChain ks c p n s
    t.S = some (chain ks c p n) ∧ t.RND = some 14 ∧ t.BLK = some n := by
  obtain ⟨m, rfl⟩ := Nat.exists_eq_succ_of_ne_zero hn.ne'
  simp only [afterChain_succ]
  exact ⟨rfl, rfl, rfl⟩

/-- R81: CS is `C[n - 1]`, with `C[-1] = c`. -/
theorem afterChain_CS (hc : s.CS = some c) : (afterChain ks c p n s).CS = some (chain ks c p n) := by
  cases n with
  | zero => exact hc
  | succ n => rw [afterChain_succ]; rfl

theorem HoldsKeys.afterChain (hk : s.HoldsKeys ks) : (afterChain ks c p n s).HoldsKeys ks := by
  rw [afterChain_frame]
  exact hk

/-- R76: with everything held, block step `j` of a run of `n` completes. -/
theorem exec_cbcBlock_afterChain {j : Nat} (hk : s.HoldsKeys ks) (hc : s.CS = some c) (hp : s.buf.HoldsBlocks p n)
    (hj : j < n) : exec (.cbcBlock j) (afterChain ks c p j s) =
      .next (afterBlock j (cipher ks (p j ^^^ chain ks c p j)) (afterChain ks c p j s)) := by
  refine exec_cbcBlock (HoldsKeys.afterChain hk) (afterChain_CS hc) fun i hi => ?_
  rw [afterChain_read_above ks c p j s (by omega), hp j hj i hi]

end

/-- R76, log 13: CBCRUN looks at the number of whole blocks of its operand alone. -/
theorem cbcRun_eq_cbcRun_mul (len : Nat) (s : State) : cbcRun len s = cbcRun (16 * (len / 16)) s := by
  rw [cbcRun, cbcRun, blockCount_mul, blockCount]

/-- Settles O60: `x j` is the state after `j` block steps. -/
theorem cbcRunIsItsBlockStepsInOrder : Obligations.CbcRunIsItsBlockStepsInOrder := by
  intro s ks c p n len hk hc hn hlen hp
  refine ⟨fun j => afterChain ks c p j s, rfl, fun j hj => ?_, ?_, afterChain_holdsBlocks ks c p n s,
    fun a => afterChain_read_above ks c p n s, ?_⟩
  · exact ⟨_, exec_cbcBlock_afterChain hk hc hp hj, afterChain_succ ks c p j s⟩
  · rw [exec, execCbcRun, cbcRun_eq_cbcRun_mul, hlen, cbcRun_ok hk hc hp, finish]
  · obtain ⟨hS, hRND, hBLK⟩ := afterChain_S_RND_BLK hn
    refine (afterChain_frame ks c p n s).trans ?_
    rw [afterChain_accesses, afterChain_CS hc, hS, hRND, hBLK]

/-! ### PROCESS (R81, R85) -/

/-- Settles O20: PROCESS runs its blocks, drops the registers they used and responds 0. -/
theorem processEncryptsTheBufferInCbcMode : Obligations.ProcessEncryptsTheBufferInCbcMode := by
  intro s ks c p n hr hk hc hn hp
  refine ⟨_, execProcess_ok hr hk hc hn hp, afterChain_holdsBlocks ks c p n s,
    fun a => afterChain_read_above ks c p n s, afterChain_CS hc, ?_⟩
  exact congrArg (fun u => respond (.status 0) (dropBlockScratch u)) (afterChain_frame ks c p n s)

/-! ### The chain from buffer to buffer (R78) -/

/-- The blocks of a byte string, first byte first (R30). -/
def blocksOf (bs : List Byte) (j : Nat) : Block := ofBytes fun i => bs.getD (16 * j + i) 0

theorem blocksOf_append_left {bs : List Byte} {n j : Nat} (h : bs.length = 16 * n) (hj : j < n) (bs' : List Byte) :
    blocksOf (bs ++ bs') j = blocksOf bs j :=
  ofBytes_congr fun i hi => List.getD_append _ _ _ _ (by omega)

theorem blocksOf_append_right {bs : List Byte} {n : Nat} (h : bs.length = 16 * n) (bs' : List Byte) (j : Nat) :
    blocksOf (bs ++ bs') (n + j) = blocksOf bs' j :=
  ofBytes_congr fun i hi => by
    rw [List.getD_append_right _ _ _ _ (by omega), show 16 * (n + j) + i - bs.length = 16 * j + i by omega]

/-- R29, R30: a presented buffer holds its bytes' blocks. -/
theorem holdsBlocks_place {bs : List Byte} {n : Nat} (h : bs.length = 16 * n) :
    (Memory.place 0 bs).HoldsBlocks (blocksOf bs) n := fun j hj i hi => by
  have hlt : 16 * j + i < bs.length := by omega
  rw [Memory.read_place_zero, blocksOf, byte_ofBytes _ i hi, List.getD_eq_getElem _ _ hlt, List.getElem?_eq_getElem hlt]

/-- Below its end, a buffer that holds blocks reads as their bytes. -/
theorem Memory.HoldsBlocks.read {m : Memory} {p : Nat → Block} {n a : Nat} (h : m.HoldsBlocks p n) (ha : a < 16 * n) :
    m.read a = some (byte (p (a / 16)) (a % 16)) := by
  rw [← h (a / 16) (by omega) (a % 16) (by omega), Nat.div_add_mod]

/-- The host moves that present a buffer and process the whole of it (R110). -/
abbrev presentAndProcess (bs : List Byte) : List HostMove := [.buffer bs, .command { op := 0b10, len := bs.length }]

theorem run_one (s : State) : run 1 s = step s := by
  rw [run_succ]
  cases step s <;> rfl

/-- R5, R39: a buffer presented and then a command run on it. -/
theorem run_buffer_command (s : State) (bs : List Byte) (c : Command) :
    run 2 (s.facing [.buffer bs, .command c]) = exec (decode c) (presentBuffer bs (s.facing [])) := by
  rw [run_succ, step_buffer]
  exact run_one _

/-- R81: on a configured engine, presenting a buffer of `n` blocks and processing it completes, encrypts its blocks in CBC
mode, leaves CS at the last block, and keeps the engine configured with the same round keys. -/
theorem run_presentAndProcess {s : State} {ks : Fin 15 → Block} {c : Block} {bs : List Byte} {n : Nat}
    (hr : s.READY = true) (hk : s.HoldsKeys ks) (hc : s.CS = some c) (hn : 0 < n) (hbs : bs.length = 16 * n) :
    ∃ t, run 2 (s.facing (presentAndProcess bs)) = .next t ∧ t.READY = true ∧ t.HoldsKeys ks ∧
      t.CS = some (chain ks c (blocksOf bs) n) ∧
      t.buf.HoldsBlocks (fun j => chain ks c (blocksOf bs) (j + 1)) n := by
  have hp : (presentBuffer bs (s.facing [])).buf.HoldsBlocks (blocksOf bs) n := holdsBlocks_place hbs
  obtain ⟨t, ht, hb, -, hcs, hframe⟩ := processEncryptsTheBufferInCbcMode (presentBuffer bs (s.facing [])) ks c
    (blocksOf bs) n hr hk hc hn hp
  refine ⟨t, ?_, by rw [hframe]; exact hr, by rw [hframe]; exact hk, hcs, hb⟩
  rw [run_buffer_command, hbs]
  exact ht

/-- Settles O22: A and then B, and A || B, both encrypt the blocks of A and of B with the chain value carried over. -/
theorem chainContinuesAcrossProcessCommands : Obligations.ChainContinuesAcrossProcessCommands := by
  intro s ks c bs bs' hr hk hc h0 hm h0' hm'
  obtain ⟨n, hn⟩ := Nat.dvd_of_mod_eq_zero hm
  obtain ⟨n', hn'⟩ := Nat.dvd_of_mod_eq_zero hm'
  have happ : (bs ++ bs').length = 16 * (n + n') := by rw [List.length_append]; omega
  obtain ⟨t, ht, htr, htk, htc, htb⟩ := run_presentAndProcess hr hk hc (by omega) hn
  obtain ⟨t', ht', -, -, htc', htb'⟩ := run_presentAndProcess htr htk htc (by omega) hn'
  obtain ⟨u, hu, -, -, huc, hub⟩ := run_presentAndProcess hr hk hc (by omega) happ
  have hleft {j : Nat} (hj : j ≤ n) : chain ks c (blocksOf (bs ++ bs')) j = chain ks c (blocksOf bs) j :=
    chain_congr fun i hi => blocksOf_append_left hn (by omega) bs'
  have hright (j : Nat) : chain ks c (blocksOf (bs ++ bs')) (n + j) =
      chain ks (chain ks c (blocksOf bs) n) (blocksOf bs') j := by
    rw [chain_add, hleft le_rfl]
    exact chain_congr fun i _ => blocksOf_append_right hn bs' i
  refine ⟨t, t', u, ht, ht', hu, ?_, fun i hi => ?_, fun i hi => ?_⟩
  · rw [huc, htc', hright]
  · rw [hub.read (by omega), htb.read (by omega), hleft (by omega)]
  · rw [hub.read (by omega), htb'.read (by omega), hn, show (16 * n + i) / 16 + 1 = n + (i / 16 + 1) by omega, hright,
      Nat.mul_add_mod]

/-! ### The chain from block to block (R80 a) -/

section
variable {ks : Fin 15 → Block} {c : Block} {p p' : Nat → Block}

/-- R59, R80: two ciphertext blocks are equal exactly when the inputs of ENCRYPTBLOCK are. -/
theorem chain_succ_inj (n : Nat) : chain ks c p (n + 1) = chain ks c p' (n + 1) ↔
    p n ^^^ chain ks c p n = p' n ^^^ chain ks c p' n :=
  (cipher_injective ks).eq_iff

/-- R80 (a): a change of block `m` alone reaches every ciphertext block from `m` on. -/
theorem chain_succ_ne {m j : Nat} (hm : p m ≠ p' m) (hne : ∀ j, j ≠ m → p j = p' j) (hj : m ≤ j) :
    chain ks c p (j + 1) ≠ chain ks c p' (j + 1) := by
  induction j, hj using Nat.le_induction with
  | base =>
    have hsame : chain ks c p m = chain ks c p' m := chain_congr fun i hi => hne i hi.ne
    rw [ne_eq, chain_succ_inj, hsame, BitVec.xor_left_inj]
    exact hm
  | succ j hj ih =>
    rw [ne_eq, chain_succ_inj, hne (j + 1) (by omega), BitVec.xor_right_inj]
    exact ih

end

/-- R30: a block of a buffer that holds blocks. -/
theorem Memory.HoldsBlocks.readBlock {m : Memory} {p : Nat → Block} {n j : Nat} (h : m.HoldsBlocks p n) (hj : j < n) :
    m.readBlock (16 * j) = p j :=
  block_ext_byte fun i hi => by rw [Memory.readBlock, byte_ofBytes _ i hi, h j hj i hi, Option.getD_some]

/-- Settles O23: before block `m` the two chains run over the same blocks, and from it on they differ. -/
theorem changedBlockChangesEveryLaterCiphertextBlock : Obligations.ChangedBlockChangesEveryLaterCiphertextBlock := by
  intro s s' ks c p p' n m hr hr' hk hk' hc hc' hmn hp hp' hm hne
  have hn : 0 < n := by omega
  obtain ⟨t, ht, hb, -⟩ := processEncryptsTheBufferInCbcMode s ks c p n hr hk hc hn hp
  obtain ⟨t', ht', hb', -⟩ := processEncryptsTheBufferInCbcMode s' ks c p' n hr' hk' hc' hn hp'
  refine ⟨t, t', ht, ht', fun j hj => ?_⟩
  rw [hb.readBlock hj, hb'.readBlock hj]
  refine ⟨fun heq => ?_, fun hlt => chain_congr fun i hi => hne i (by omega)⟩
  by_contra hge
  exact chain_succ_ne hm hne (by omega) heq

/-! ### The direction flag (R82) -/

@[simp] theorem HostMove.withoutDir_withoutDir (m : HostMove) : m.withoutDir.withoutDir = m.withoutDir := by
  cases m <;> rfl

@[simp] theorem State.withoutDir_withoutDir (s : State) : s.withoutDir.withoutDir = s.withoutDir := by
  simp [State.withoutDir]

/-- Looking twice shows what looking once does. -/
theorem seen_seen {view : State → State} (h : ∀ s, view (view s) = view s) (o : Host.Outcome State Fault Refusal) :
    seen view (seen view o) = seen view o := by
  cases o with
  | next t => exact congrArg Host.Outcome.next (h t)
  | fault f | refused r => rfl

/-- R75, R82: a block step does the same without the direction flag. -/
theorem cbcBlock_withoutDir (n : Nat) (s : State) :
    cbcBlock n s.withoutDir = (cbcBlock n s).map State.withoutDir := by
  rcases cbcBlock_congr (s := s) (s' := s.withoutDir) rfl rfl rfl n with ⟨y, hb, hb'⟩ | ⟨f, hb, hb'⟩ <;> rw [hb, hb']
  · rfl
  · rfl

theorem cbcLoop_withoutDir (todo blk : Nat) (s : State) :
    cbcLoop todo blk s.withoutDir = (cbcLoop todo blk s).map State.withoutDir := by
  induction todo generalizing blk s with
  | zero => rfl
  | succ todo ih =>
    simp only [cbcLoop, bind, Except.bind, cbcBlock_withoutDir]
    cases cbcBlock blk s with
    | error f => rfl
    | ok t => exact ih (blk + 1) (setBLK (blk + 1) t)

/-- R82, R85: PROCESS does the same without the direction flag. -/
theorem execProcess_withoutDir (len : Nat) (s : State) :
    execProcess len s.withoutDir = seen State.withoutDir (execProcess len s) := by
  have hrun : cbcRun len s.withoutDir = (cbcRun len s).map State.withoutDir := cbcLoop_withoutDir _ 0 (setBLK 0 s)
  rw [execProcess, execProcess, hrun, show s.withoutDir.READY = s.READY from rfl]
  split
  · rfl
  split
  · rfl
  · cases cbcRun len s <;> rfl

/-- R82, R83: two CONSTRUCTs that differ in their direction operands leave states that differ in the flag alone. -/
theorem seen_execConstruct_withoutDir (klen : Nat) (key : List Byte) (iv : Vector Byte 16) (dirv dirv' : Bool)
    (s : State) :
    seen State.withoutDir (execConstruct klen key iv dirv' s.withoutDir) =
      seen State.withoutDir (execConstruct klen key iv dirv s) := by
  unfold execConstruct
  split
  · cases keyHalves key with
    | none => rfl
    | some k =>
      exact congrArg (fun u => Host.Outcome.next
        { respond .completion (installInstance k.1 k.2 (ivValue iv) dirv u) with DIR := none }) s.withoutDir_withoutDir
  · exact congrArg (fun u => Host.Outcome.next (raise .constructionFailure (loseInstance u))) s.withoutDir_withoutDir

/-- R82: no command shows the direction flag it finds or the direction operand it brings. -/
theorem seen_exec_decode_withoutDir (c : Command) (s : State) :
    seen State.withoutDir (exec (decode { c with dirv := false }) s.withoutDir) =
      seen State.withoutDir (exec (decode c) s) := by
  obtain ⟨op, klen, key, iv, dirv, len⟩ := c
  rcases decode_cases { op, klen, key, iv, dirv, len } with ⟨rfl, -⟩ | ⟨rfl, -⟩ | ⟨rfl, -⟩ | ⟨rfl, -⟩
  · exact congrArg (fun u => Host.Outcome.next (raise .illegalCommand u)) s.withoutDir_withoutDir
  · exact seen_execConstruct_withoutDir klen key iv dirv false s
  · refine (congrArg (seen State.withoutDir) (execProcess_withoutDir len s)).trans ?_
    exact seen_seen State.withoutDir_withoutDir (execProcess len s)
  · exact congrArg (fun u => Host.Outcome.next (respond (.ready u.READY) u)) s.withoutDir_withoutDir

/-- R108: what reset leaves of a command cut short does not show the flag, before the command or after. -/
theorem cutByReset_withoutDir {s s' t t' : State} (h : s.withoutDir = s'.withoutDir)
    (ht : t.withoutDir = t'.withoutDir) :
    (cutByReset s t).withoutDir = (cutByReset s' t').withoutDir :=
  (congrArg₂ cutByReset h ht :)

theorem seen_step_withoutDir (s : State) :
    seen State.withoutDir (step s.withoutDir) = seen State.withoutDir (step s) := by
  rw [← facing_self s]
  cases s.host with
  | nil => exact congrArg Host.Outcome.next (s.facing []).withoutDir_withoutDir
  | cons m rest =>
    cases m with
    | command c => exact seen_exec_decode_withoutDir c (s.facing rest)
    | buffer bytes =>
      exact congrArg (fun u => Host.Outcome.next (presentBuffer bytes u)) (s.facing rest).withoutDir_withoutDir
    | reset => exact congrArg (fun u => Host.Outcome.next (resetEngine u)) (s.facing rest).withoutDir_withoutDir
    | resetDuring c =>
      have hmove : (s.facing (.resetDuring c :: rest)).withoutDir =
        s.withoutDir.facing (.resetDuring { c with dirv := false } :: rest.map HostMove.withoutDir) := rfl
      have hsame : seen State.withoutDir
          (exec (decode { c with dirv := false }) (s.withoutDir.facing (rest.map HostMove.withoutDir))) = _ :=
        seen_exec_decode_withoutDir c (s.facing rest)
      rw [hmove, step_resetDuring, step_resetDuring]
      rcases seen_eq_cases hsame with ⟨t, t', ht, ht', hv⟩ | ⟨f, ht, ht'⟩ | ⟨r, ht, ht'⟩ <;> rw [ht, ht']
      exact congrArg Host.Outcome.next (cutByReset_withoutDir (s.facing rest).withoutDir_withoutDir hv)

/-- Settles O33: a step from a state looks like the step from it without the flag, and so from any two states alike but for
the flag. -/
theorem directionFlagHasNoEffect : Obligations.DirectionFlagHasNoEffect := fun k _ _ h =>
  run_seen (fun s s' h => by rw [← seen_step_withoutDir s, h, seen_step_withoutDir s']) k h

end Sys2Proof.Machine

/-! ## The family 43_commands.md: what CONSTRUCT installs, what it forgets, and READY over any host moves -/

namespace Sys2Proof.Machine

open Sys2Proof

/-! ### READY from one move of the host to the next (R17, R84) -/

/-- What a CONSTRUCT that answers did (R83). -/
theorem execConstruct_next {klen : Nat} {key : List Byte} {iv : Vector Byte 16} {dirv : Bool} {s t : State}
    (h : execConstruct klen key iv dirv s = .next t) :
    (klen ≠ 32 ∧ t = raise .constructionFailure (loseInstance s)) ∨
    (klen = 32 ∧ ∃ k0 k1, keyHalves key = some (k0, k1) ∧
      t = respond .completion (installInstance k0 k1 (ivValue iv) dirv s)) := by
  rcases execConstruct_cases klen key iv dirv s with ⟨hl, he⟩ | ⟨k0, k1, hl, hk, he⟩ | ⟨-, -, he⟩ <;>
    rw [he] at h <;> cases h
  · exact .inl ⟨hl, rfl⟩
  · exact .inr ⟨hl, k0, k1, hk, rfl⟩

/-- R17: CONSTRUCT "writes 1 when the key length operand is 32 and 0 otherwise". -/
theorem execConstruct_READY {klen : Nat} {key : List Byte} {iv : Vector Byte 16} {dirv : Bool} {s t : State}
    (h : execConstruct klen key iv dirv s = .next t) : t.READY = decide (klen = 32) := by
  rcases execConstruct_next h with ⟨hl, rfl⟩ | ⟨hl, k0, k1, -, rfl⟩
  · exact (decide_eq_false hl).symm
  · exact (decide_eq_true hl).symm

/-- R17, R84: a CONSTRUCT sets READY by its key length, and every other command keeps it. -/
theorem exec_decode_READY {c : Command} {s t : State} (h : exec (decode c) s = .next t) :
    t.READY = if c.op = 0b01 then decide (c.klen = 32) else s.READY := by
  split
  case isTrue hop =>
    rw [decode, hop] at h
    exact execConstruct_READY h
  case isFalse hop =>
    obtain ⟨-, hREADY, -⟩ := (exec_decode_RK_READY_DIR h).resolve_left hop
    exact hREADY

/-- R17, R107, R108: READY after a step is what `readyAfter` says of the move it took. -/
theorem step_READY {s t : State} {m : HostMove} {rest : List HostMove} (hm : s.host = m :: rest)
    (h : step s = .next t) : t.READY = readyAfter s.READY [m] := by
  rcases step_next h with ⟨hm', -⟩ | ⟨c, rest', hm', he⟩ | ⟨bytes, rest', hm', rfl⟩ | ⟨rest', hm', rfl⟩ |
    ⟨c, rest', u, hm', -, rfl⟩ <;> cases hm.symm.trans hm'
  · exact exec_decode_READY (s := s.facing rest) he
  · rfl
  · rfl
  · rfl

theorem readyAfter_cons (ready : Bool) (m : HostMove) (ms : List HostMove) :
    readyAfter ready (m :: ms) = readyAfter (readyAfter ready [m]) ms := by
  cases m <;> rfl

/-- R84: READY after a run over all the moves to come, by induction on them. -/
theorem run_READY {ms : List HostMove} {s t : State} (hms : s.host = ms) (h : run ms.length s = .next t) :
    t.READY = readyAfter s.READY ms := by
  induction ms generalizing s with
  | nil => cases h; rfl
  | cons m ms ih =>
    obtain ⟨u, hu, hrun⟩ := run_succ_inv h
    rw [readyAfter_cons, ← step_READY hms hu]
    exact ih (step_host hms hu) hrun

/-- Settles O15: the run from `s` facing the moves, each of which acts on READY as `readyAfter` says. -/
theorem readyTellsWhetherTheLastConstructSucceeded : Obligations.ReadyTellsWhetherTheLastConstructSucceeded :=
  fun ms s _ h => run_READY (s := s.facing ms) rfl h

/-! ### CONSTRUCT (R83) and ISREADY (R84) -/

/-- R44: a 32-byte KEY has two halves, of its first sixteen bytes and of its last. -/
theorem keyHalves_bytes {key : List Byte} (hk : key.length = 32) :
    ∃ k0 k1, keyHalves key = some (k0, k1) ∧
      ∀ i (hi : i < 16), byte k0 i = key[i] ∧ byte k1 i = key[16 + i] := by
  refine ⟨_, _, keyHalves_some hk, fun i hi => ⟨?_, ?_⟩⟩
  · rw [byte_ofBytes _ i hi, List.getD_eq_getElem]
  · rw [byte_ofBytes _ i hi, List.getD_eq_getElem]

/-- R83: CONSTRUCT with a 32-byte KEY sets the registers up from its halves and responds. -/
theorem execConstruct_ok {key : List Byte} {k0 k1 : Block} (hk : keyHalves key = some (k0, k1)) (iv : Vector Byte 16)
    (dirv : Bool) (s : State) :
    execConstruct 32 key iv dirv s = .next (respond .completion (installInstance k0 k1 (ivValue iv) dirv s)) := by
  rw [execConstruct, if_pos ((keyLengthOk_iff 32).2 rfl), hk]

/-- Settles O10: the halves of KEY and the assembled IV are the three values, and what is installed from them, with its
scratch registers dropped, is the state of the statement. -/
theorem constructInstallsKeyIvAndDirection : Obligations.ConstructInstallsKeyIvAndDirection := by
  intro s key iv dirv hk
  obtain ⟨k0, k1, hhalves, hbytes⟩ := keyHalves_bytes hk
  refine ⟨k0, k1, ivValue iv, fun i hi => ?_, execConstruct_ok hhalves iv dirv s⟩
  obtain ⟨hbyte0, hbyte1⟩ := hbytes i hi
  exact ⟨hbyte0, hbyte1, byte_ivValue iv hi⟩

/-- Settles O13: the key length tells which end of CONSTRUCT both runs took, and what either end leaves in the four
registers comes from the operands. -/
theorem constructForgetsTheOldInstance : Obligations.ConstructForgetsTheOldInstance := by
  intro klen key iv dirv s s' t t' h h'
  have hREADY : t.READY = decide (klen = 32) := execConstruct_READY h
  have hREADY' : t'.READY = decide (klen = 32) := execConstruct_READY h'
  suffices hsame : t.RK = t'.RK ∧ t.CS = t'.CS ∧ t.DIR = t'.DIR by
    obtain ⟨hRK, hCS, hDIR⟩ := hsame
    exact ⟨hRK, hCS, hDIR, hREADY.trans hREADY'.symm, hREADY⟩
  rcases execConstruct_next h with ⟨hl, rfl⟩ | ⟨hl, k0, k1, hk, rfl⟩ <;>
    rcases execConstruct_next h' with ⟨hl', rfl⟩ | ⟨hl', k0', k1', hk', rfl⟩
  · exact ⟨rfl, rfl, rfl⟩
  · exact absurd hl' hl
  · exact absurd hl hl'
  · cases hk.symm.trans hk'
    exact ⟨rfl, rfl, rfl⟩

/-- Settles O14: `respond` adds to the responses and to nothing else. -/
theorem isReadyRespondsReady : Obligations.IsReadyRespondsReady := fun _ => rfl

end Sys2Proof.Machine

/-! ## The family 60_exceptions.md: the operating state, the failing CONSTRUCT, and the three status errors -/

namespace Sys2Proof.Machine

open Sys2Proof

/-! ### The operating state (R103) is READY -/

theorem operating_eq_of_READY_eq {s t : State} (h : t.READY = s.READY) : t.operating = s.operating := by
  rw [State.operating, State.operating, h]

/-- R103: UNCONFIGURED is what READY = 0 means. -/
theorem operating_of_not_READY {s : State} (h : s.READY = false) : s.operating = .unconfigured := by
  rw [State.operating, h]; rfl

/-- R17: a PROCESS that answers keeps READY, as every command but CONSTRUCT does. -/
theorem execProcess_READY {len : Nat} {s t : State} (h : execProcess len s = .next t) : t.READY = s.READY :=
  exec_decode_READY (c := { op := 0b10, len := len }) h

/-- R17, R103: the key length decides which operating state CONSTRUCT leaves. -/
theorem execConstruct_operating {klen : Nat} {key : List Byte} {iv : Vector Byte 16} {dirv : Bool} {s t : State}
    (h : execConstruct klen key iv dirv s = .next t) :
    t.operating = if klen = 32 then .configured else .unconfigured := by
  simp [State.operating, execConstruct_READY h]

/-- Settles O35: each move is followed to the READY it leaves, which is the operating state. -/
theorem operatingStateFollowsConstructAndReset : Obligations.OperatingStateFollowsConstructAndReset := by
  refine ⟨rfl, fun s t klen key iv dirv h => execConstruct_operating h,
    fun s t len h => operating_eq_of_READY_eq (execProcess_READY h), fun s t h => ?_, fun s rest => ⟨?_, ?_, ?_, ?_⟩⟩
  · rcases h with h | h <;> cases h
    · exact operating_eq_of_READY_eq (respond_READY (.ready s.READY) s)
    · exact operating_eq_of_READY_eq (raise_READY .illegalCommand s)
  · exact ⟨_, step_reset s rest, operating_of_not_READY (resetEngine_READY _)⟩
  · intro c t h
    obtain ⟨u, -, rfl⟩ := step_resetDuring_inv h
    exact operating_of_not_READY (resetEngine_READY _)
  · intro bytes
    exact ⟨_, step_buffer s bytes rest, operating_eq_of_READY_eq (presentBuffer_READY bytes (s.facing rest))⟩
  · exact ⟨_, step_idle s, rfl⟩

/-! ### The errors of the commands (R92 to R95, R99) -/

/-- R92: CONSTRUCT raises ConstructionFailure on every key length but one. -/
theorem execConstruct_wrongLength {klen : Nat} (hl : klen ≠ 32) (key : List Byte) (iv : Vector Byte 16) (dirv : Bool)
    (s : State) : execConstruct klen key iv dirv s = .next (raise .constructionFailure (loseInstance s)) :=
  if_neg (mt (keyLengthOk_iff klen).1 hl)

/-- R94, R99: READY is the first test of PROCESS, so NotReady is raised whatever the length. -/
theorem execProcess_notReady {s : State} (hr : s.READY = false) (len : Nat) :
    execProcess len s = .next (raise .notReady s) :=
  if_pos hr

/-- R93: the length is the second test of PROCESS. -/
theorem execProcess_badLength {s : State} {len : Nat} (hr : s.READY = true) (hl : len = 0 ∨ len % 16 ≠ 0) :
    execProcess len s = .next (raise .invalidBufferSize s) := by
  have hlen : lengthOk len = false := by
    rw [Bool.eq_false_iff, ne_eq, lengthOk_iff]
    omega
  rw [execProcess, if_neg (by simp [hr]), if_pos hlen]

/-- R47: word 00 decodes to the reserved row. -/
theorem decode_reserved {c : Command} (h : c.op = 0b00) : decode c = .reserved := by
  rw [decode, h]; rfl

/-- Settles O11: what ConstructionFailure leaves, its response being the completion, and ISREADY after it. -/
theorem constructFailsOnAnyOtherKeyLength : Obligations.ConstructFailsOnAnyOtherKeyLength :=
  fun s _ key iv dirv hl => ⟨_, execConstruct_wrongLength hl key iv dirv s, rfl, rfl⟩

/-- Settles O16: a raise adds its response and keeps everything else (R96). -/
theorem processWhileNotReadyRaisesNotReady : Obligations.ProcessWhileNotReadyRaisesNotReady :=
  fun _ len hr => execProcess_notReady hr len

/-- Settles O17: a raise adds its response and keeps everything else (R96). -/
theorem processOfBadLengthRaisesInvalidBufferSize : Obligations.ProcessOfBadLengthRaisesInvalidBufferSize :=
  fun _ _ hr hl => execProcess_badLength hr hl

/-- Settles O18: the operands are lost in decoding word 00, and the reserved row raises IllegalCommand. -/
theorem reservedWordRespondsIllegalCommand : Obligations.ReservedWordRespondsIllegalCommand := by
  intro s c rest h
  rw [step_command, decode_reserved h]
  rfl

/-- Settles O19: with READY 0 the length is not looked at. -/
theorem notReadyTakesPriorityOverLength : Obligations.NotReadyTakesPriorityOverLength :=
  fun s len hr _ => ⟨_, execProcess_notReady hr len, raise_responses .notReady s⟩

end Sys2Proof.Machine

/-! ## The family 70_reset_and_hazards.md: reset between commands and within one, and the bring-up a host must do -/

namespace Sys2Proof.Machine

open Sys2Proof

/-! ### Reset between commands (R107, R109) -/

/-- R107: whatever the state, reset leaves in the registers what `State.reset` has there. -/
theorem resetEngine_registers (s : State) : let t := resetEngine s
    t.READY = false ∧ (∀ i : Fin 15, t.RK[i] = none) ∧ t.CS = none ∧ t.DIR = none ∧ t.WorkingEmpty :=
  resetLeavesOnlyReadyWithAValue

/-- Settles O7: `resetEngine` keeps the buffer and the ports, and with READY 0 PROCESS raises NotReady. -/
theorem resetEventUnconfiguresTheEngine : Obligations.ResetEventUnconfiguresTheEngine := by
  intro s rest
  obtain ⟨hREADY, hRK, hCS, hDIR, hworking⟩ := resetEngine_registers (s.facing rest)
  exact ⟨_, step_reset s rest, hREADY, hRK, hCS, hDIR, hworking, rfl, rfl, rfl, rfl, isReadyRespondsReady _,
    fun len => processWhileNotReadyRaisesNotReady _ len hREADY⟩

/-! ### Reset while PROCESS is in progress (R108) -/

section
variable {pick : Nat → Bool} {new old : Memory}

/-- R108: where two buffers hold blocks, a mix of them holds for each block the one it picks. -/
theorem Memory.HoldsBlocks.mix {p q : Nat → Block} {n : Nat} (hp : old.HoldsBlocks p n) (hq : new.HoldsBlocks q n) :
    (Memory.mix pick new old).HoldsBlocks (fun j => if pick j then q j else p j) n := fun j hj i hi => by
  rw [Memory.read_mix, hp j hj i hi, hq j hj i hi, show (16 * j + i) / 16 = j by omega]
  exact congrArg some (apply_ite (byte · i) (pick j = true) (q j) (p j)).symm

/-- R108: a byte that two buffers agree on is in any mix of them. -/
theorem Memory.read_mix_of_read_eq {a : Nat} (h : new.read a = old.read a) :
    (Memory.mix pick new old).read a = old.read a := by
  rw [Memory.read_mix, h]
  cases old.read a with
  | none => rfl
  | some b => simp

end

/-- R47: word 10 decodes to PROCESS. -/
theorem decode_process {c : Command} (h : c.op = 0b10) : decode c = .process c.len := by
  rw [decode, h]; rfl

/-- Settles O8: the whole PROCESS would have left the ciphertext blocks and touched nothing above them, and the buffer reset
leaves is a mix of that one with the old. -/
theorem resetDuringProcessLeavesEachBlockPlainOrEncrypted :
    Obligations.ResetDuringProcessLeavesEachBlockPlainOrEncrypted := by
  intro s ks c p n cmd rest hr hk hc hn hp hop hlen
  obtain ⟨u, hu, hcipher, habove, -⟩ := processEncryptsTheBufferInCbcMode (s.facing rest) ks c p n hr hk hc hn hp
  have hstep : step (s.facing (.resetDuring cmd :: rest)) = .next (cutByReset (s.facing rest) u) := by
    rw [step_resetDuring, decode_process hop, hlen, hu]
  obtain ⟨hREADY, hRK, hCS, hDIR, hworking⟩ := resetEngine_registers s
  refine ⟨_, hstep, hREADY, hRK, hCS, hDIR, hworking, rfl, rfl, ⟨_, hp.mix hcipher, fun j _ => ?_⟩,
    fun a ha => Memory.read_mix_of_read_eq (habove a ha)⟩
  exact (ite_eq_or_eq _ _ _).symm

/-! ### Reset while any other command is in progress (R108) -/

/-- R108: reset within a command that left the buffer alone is reset, but for the count of commands cut short. -/
theorem cutByReset_of_buf_eq {s t : State} (hwf : s.buf.wf = true) (h : t.buf = s.buf) :
    cutByReset s t = { resetEngine s with cutShort := s.cutShort + 1 } := by
  rw [cutByReset, h, Memory.mix_self _ _ hwf]
  rfl

/-- R29, R33, R93, R94: a command that is no PROCESS past its two tests leaves the buffer alone. -/
theorem exec_decode_buf_of_noRun {c : Command} {s t : State} (h : exec (decode c) s = .next t)
    (hc : c.op ≠ 0b10 ∨ s.READY = false ∨ c.len = 0 ∨ c.len % 16 ≠ 0) : t.buf = s.buf := by
  rcases exec_decode_buf h with hop | hsame
  · rw [decode_process hop] at h
    change execProcess c.len s = .next t at h
    rcases execProcess_cases c.len s with ⟨-, he⟩ | ⟨-, -, he⟩ | ⟨hr, h0, hm, -⟩
    · rw [he] at h; cases h; rfl
    · rw [he] at h; cases h; rfl
    · simp [hop, hr, h0.ne', hm] at hc
  · exact hsame

/-- Settles O9: the command cut short would have left the buffer alone. -/
theorem resetDuringAnotherCommandIsReset : Obligations.ResetDuringAnotherCommandIsReset := by
  intro s t cmd rest hwf hcmd hstep
  obtain ⟨u, hu, rfl⟩ := step_resetDuring_inv hstep
  exact cutByReset_of_buf_eq (s := s.facing rest) hwf (exec_decode_buf_of_noRun hu hcmd)

/-! ### Bring-up (R110) -/

/-- R5, R86: a run whose first move is a command that answers goes on from what the command left. -/
theorem run_command {s t : State} {c : Command} {rest : List HostMove} {k : Nat}
    (h : exec (decode c) (s.facing rest) = .next t) : run (k + 1) (s.facing (.command c :: rest)) = run k t := by
  rw [run_succ, step_command, h]

/-- R110: CONSTRUCT with a 32-byte key and ISREADY configure the engine, which answers a completion and 1. -/
theorem run_constructAndCheck {key : List Byte} {k0 k1 : Block} (hk : keyHalves key = some (k0, k1))
    (iv : Vector Byte 16) (dirv : Bool) (rest : List HostMove) (s : State) (k : Nat) :
    run (k + 2) (s.facing (.command { op := 0b01, klen := 32, key := key, iv := iv, dirv := dirv } ::
        .command { op := 0b11 } :: rest)) =
      run k ((respond (.ready true) (respond .completion (installInstance k0 k1 (ivValue iv) dirv s))).facing rest) :=
  let constructed := respond .completion (installInstance k0 k1 (ivValue iv) dirv s)
  .trans (run_command (t := constructed.facing _) (execConstruct_ok hk iv dirv _)) (run_command (isReadyRespondsReady _))

/-- R81, R110: on a configured engine, presenting a buffer of whole blocks, at least one, and processing it answers 0. -/
theorem run_presentAndProcess_responses {s : State} {ks : Fin 15 → Block} {c : Block} {bs : List Byte}
    (hr : s.READY = true) (hk : s.HoldsKeys ks) (hc : s.CS = some c) (h0 : 0 < bs.length) (hm : bs.length % 16 = 0) :
    ∃ t, run 2 (s.facing (presentAndProcess bs)) = .next t ∧ t.responses = .status 0 :: s.responses := by
  obtain ⟨n, hn⟩ := Nat.dvd_of_mod_eq_zero hm
  obtain ⟨t, ht, -, -, -, hframe⟩ := processEncryptsTheBufferInCbcMode (presentBuffer bs (s.facing [])) ks c
    (blocksOf bs) n hr hk hc (by omega) (holdsBlocks_place hn)
  refine ⟨t, ?_, by rw [hframe]; rfl⟩
  rw [run_buffer_command, hn]
  exact ht

/-- Settles O36: the first two moves configure the engine, the other two process a buffer on it, and none of the three
responses is NotReady or IllegalCommand. -/
theorem bringUpRunsSafely : Obligations.BringUpRunsSafely := by
  intro s key bs iv dirv hkey h0 hm start
  obtain ⟨k0, k1, hk, -⟩ := keyHalves_bytes hkey
  obtain ⟨t, ht, hresponses⟩ := run_presentAndProcess_responses
    (s := respond (.ready true) (respond .completion (installInstance k0 k1 (ivValue iv) dirv s)))
    rfl (HoldsKeys.of_roundKeys rfl) rfl h0 hm
  have hrun : run 4 start = .next t := (run_constructAndCheck hk iv dirv (presentAndProcess bs) s 2).trans ht
  exact ⟨⟨t, [.status 0, .ready true, .completion], hrun, hresponses, by decide⟩, t, hrun, hresponses⟩

end Sys2Proof.Machine

/-! ## An unwritten buffer byte (93_implementation_defined.md, U6): where PROCESS, CBCRUN and CBCBLOCK stop -/

namespace Sys2Proof.Machine

open Sys2Proof

/-- R76: a loop over `m + k` blocks is the loop over `m` and then the loop over `k`. -/
theorem cbcLoop_add (m k blk : Nat) (s : State) :
    cbcLoop (m + k) blk s = (cbcLoop m blk s).bind (cbcLoop k (blk + m)) := by
  induction m generalizing blk s with
  | zero => rw [Nat.zero_add]; rfl
  | succ m ih =>
    rw [Nat.add_right_comm, cbcLoop, cbcLoop]
    cases cbcBlock blk s with
    | error f => rfl
    | ok t =>
      rw [show blk + (m + 1) = blk + 1 + m by omega]
      exact ih (blk + 1) (setBLK (blk + 1) t)

/-- A loop with a block still to do stops where that block does. -/
theorem cbcLoop_error {todo blk : Nat} {s : State} {f : Fault} (htodo : 0 < todo) (h : cbcBlock blk s = .error f) :
    cbcLoop todo blk s = .error f := by
  obtain ⟨k, rfl⟩ := Nat.exists_eq_succ_of_ne_zero htodo.ne'
  rw [cbcLoop, h]
  rfl

/-- R76: after `n` block steps that completed, CBCRUN stops where block step `n` does. -/
theorem cbcRun_error {s : State} {ks : Fin 15 → Block} {c : Block} {p : Nat → Block} {n len : Nat} {f : Fault}
    (hk : s.HoldsKeys ks) (hc : s.CS = some c) (hp : s.buf.HoldsBlocks p n) (hlen : n < len / 16)
    (h : cbcBlock n (afterChain ks c p n s) = .error f) : cbcRun len s = .error f := by
  have hfirst : cbcLoop n 0 (setBLK 0 s) = .ok (afterChain ks c p n s) := by
    rw [← cbcRun_ok hk hc hp, cbcRun, blockCount_mul]
  have hcount : blockCount len = n + (len / 16 - n) := (Nat.add_sub_cancel' hlen.le).symm
  rw [cbcRun, hcount, cbcLoop_add, hfirst, Nat.zero_add]
  exact cbcLoop_error (Nat.sub_pos_of_lt hlen) h

/-- R85: past its two tests PROCESS stops where CBCRUN does. -/
theorem execProcess_error {s : State} {len : Nat} {f : Fault} (hr : s.READY = true) (h0 : 0 < len)
    (hm : len % 16 = 0) (h : cbcRun len s = .error f) : execProcess len s = .fault f := by
  rw [execProcess, if_neg (by simp [hr]), if_neg (by simp [(lengthOk_iff len).2 ⟨h0, hm⟩]), h]
  rfl

/-- Settles O24: the byte is the first that block `n` misses, in the buffer as it stands and after the block steps before
`n`, which write below it. -/
theorem unwrittenBufferByteFaults : Obligations.UnwrittenBufferByteFaults := by
  intro s ks c p n len a hk hc hm hp hna han hal hbefore hmissing
  have hstep {t : State} (ht : ∀ j, 16 * n ≤ j → t.buf.read j = s.buf.read j) :
      cbcBlock n t = .error (.bufferByteHasNoValue a) :=
    cbcBlock_fault_byte <| Memory.firstMissing_eq_some.2
      ⟨hna, han, (ht a hna).trans hmissing, fun j hj hja => by rw [ht j hj]; exact hbefore j hj hja⟩
  have hrun : cbcRun len s = .error (.bufferByteHasNoValue a) :=
    cbcRun_error hk hc hp (by omega) (hstep fun _ => afterChain_read_above ks c p n s)
  refine ⟨fun hr => execProcess_error hr (by omega) hm hrun, ?_, ?_⟩
  · rw [exec, execCbcRun, hrun, finish]
  · rw [exec, execCbcBlock, hstep fun _ _ => rfl, finish]

end Sys2Proof.Machine
